-- ==== Sys2Proof/Word.lean ====
section
/-! DEFINITION. The word and byte types of the DLCA (spec 00_scope.md R7, R8; 20_memory.md R33). -/

namespace Sys2Proof

/-- A word: 64 bits, the unit of data and of each accumulator scalar (R7 WORD_BITS, R33). -/
abbrev Word := BitVec 64

/-- A byte of the data space (R33). -/
abbrev Byte := BitVec 8

/-- A command word (R53). -/
abbrev CommandWord := BitVec 32

/-- `N_LIMIT` of R7: a word count is accepted only below it. -/
def wordLimit : Nat := 2 ^ 19

/-- The number of byte addresses of the data space (R33, R40). -/
def addressSpace : Nat := 2 ^ 64

end Sys2Proof
end

