-- ==== Sys2Proof/Syntax.lean ====
section
/-! DEFINITION. The commands (every row of spec/opcode_table.json), the fields of format C, the slots of the
register block, and the events by which the outside world acts on the block. -/

namespace Sys2Proof

/-- The eleven commands of R58. No command has an operand field (R54): operands are fixed registers. -/
inductive Instr where
  /-- ACC.INIT (R79) -/
  | accInit
  /-- ACC.UPD (R80) -/
  | accUpd
  /-- ACC.PUT (R81) -/
  | accPut
  /-- ACC.CMPEQ (R83) -/
  | accCmpeq
  /-- RENDER.OUT (R86) -/
  | renderOut
  /-- RENDER.REF (R87) -/
  | renderRef
  /-- RENDER.ACC (R88) -/
  | renderAcc
  /-- CSUM (R89) -/
  | csum
  /-- COPY.B (R100) -/
  | copyB
  /-- COPY.W (R101) -/
  | copyW
  /-- COPY.F (R102) -/
  | copyF
  deriving DecidableEq, Repr

/-- The fields of format C (R54), `ZERO` first as in the pattern string. -/
structure FormatC where
  zero : BitVec 26
  mod  : BitVec 2
  op   : BitVec 4
  deriving DecidableEq, Repr

/-- One of the four scalars of an accumulator value (R11, R67), in register order (R16). -/
inductive Scalar where
  | a1
  | a2
  | b1
  | b2
  deriving DecidableEq, Repr

/-- The slots of the register block (R16). -/
inductive Slot where
  | cmd
  | status
  | src
  | dst
  | len
  | cnt
  | w (k : Fin 4)
  | acc (x : Scalar)
  | out (x : Scalar)
  | ref (x : Scalar)
  | txt (r : Fin 8)
  | reserved
  deriving DecidableEq, Repr

/-- The two accesses of the engine: `MemRead` and `MemWrite` (R36, R37). -/
inductive AccessKind where
  | read
  | write
  deriving DecidableEq, Repr

/-- A run of data-space addresses, `base` to `base + size - 1`, at which data memory does not admit the engine's reads, its
writes, or both: no memory there, protection, a bus error (R42, R49 (c); log 4). -/
structure Region where
  base    : Nat
  size    : Nat
  noRead  : Bool
  noWrite : Bool
  deriving DecidableEq, Repr

/-- What another agent, the platform or data memory itself may do to data memory (R13 (c), (d), R45, R48, R49, R135). -/
inductive AgentAct where
  /-- A byte is written. -/
  | write (addr : Word) (byte : Byte)
  /-- A byte is read. -/
  | read (addr : Word)
  /-- Data memory performs the write the engine has issued to this address, if one is outstanding (R30 (c), R45; log 7). -/
  | perform (addr : Word)
  /-- Memory is mapped, unmapped or protected: these regions are from now on the ones not admitted (log 4). -/
  | remap (holes : List Region)
  deriving DecidableEq, Repr

/-- What another agent or data memory does while a CSUM or COPY.* runs (R45, R49): it happens once the engine has made `after` of
the command's accesses, and not before what is armed ahead of it (log 8). -/
structure Rival where
  after : Nat
  act   : AgentAct
  deriving DecidableEq, Repr

/-- What the outside world does to the block (R14, R141), one event a step. -/
inductive Event where
  /-- `WR off, data` on the control port, of `size` bytes (R14 (a), R17). -/
  | wr (size off : Nat) (data : Word)
  /-- `RD off` on the control port, of `size` bytes (R14 (a), R17). -/
  | rd (size off : Nat)
  /-- The reset input is asserted and released while no command runs (R127). -/
  | reset
  /-- `WR CMD, data`, and reset is asserted before that write completes (R129). -/
  | cmdReset (data : Word)
  /-- The host, another agent or the platform acts on data memory while no command runs (R13 (d), R32 (b), R42). -/
  | agent (act : AgentAct)
  /-- Other agents and data memory will do this, in this order, during the next CSUM or COPY.* that runs (R45, R49). -/
  | race (acts : List Rival)
  deriving DecidableEq, Repr

end Sys2Proof
end

