-- ==== Sys2Proof/WellFormed.lean ====
section
/-! DEFINITION. Which format C fields are a command's (R54, R55, R59), and which control-port accesses are supported (R17 (a)). -/

namespace Sys2Proof

/-- R59 (b): the operation codes that some command has. -/
def FormatC.opAssigned (f : FormatC) : Bool :=
  f.op == 0x1 || f.op == 0x2 || f.op == 0x3 || f.op == 0x4 || f.op == 0x5 || f.op == 0x8 || f.op == 0x9

/-- R55: RENDER and COPY use MOD as a selector or strategy. -/
def FormatC.usesMod (f : FormatC) : Bool := f.op == 0x5 || f.op == 0x9

/-- R55, R59 (c), (d): MOD is below 3 where it is used and 0 elsewhere. -/
def FormatC.modLegal (f : FormatC) : Bool :=
  if f.usesMod then f.mod != 3 else f.mod == 0

/-- R59 (a): the ZERO field is 0. -/
def FormatC.zeroLegal (f : FormatC) : Bool := f.zero == 0

/-- The fields are those of one of the eleven commands (R59). -/
def FormatC.wellFormed (f : FormatC) : Bool := f.zeroLegal && f.opAssigned && f.modLegal

/-- The OP and MOD fields of each command (R58). -/
def Instr.fields : Instr → FormatC
  | .accInit   => { zero := 0, mod := 0, op := 0x1 }
  | .accUpd    => { zero := 0, mod := 0, op := 0x2 }
  | .accPut    => { zero := 0, mod := 0, op := 0x3 }
  | .accCmpeq  => { zero := 0, mod := 0, op := 0x4 }
  | .renderOut => { zero := 0, mod := 0, op := 0x5 }
  | .renderRef => { zero := 0, mod := 1, op := 0x5 }
  | .renderAcc => { zero := 0, mod := 2, op := 0x5 }
  | .csum      => { zero := 0, mod := 0, op := 0x8 }
  | .copyB     => { zero := 0, mod := 0, op := 0x9 }
  | .copyW     => { zero := 0, mod := 1, op := 0x9 }
  | .copyF     => { zero := 0, mod := 2, op := 0x9 }

/-- A command is well formed if its fields are; a command has no operands, so every one is. -/
def Instr.wellFormed (i : Instr) : Bool := i.fields.wellFormed

/-- R17 (a): the control-port accesses the spec defines: 8 bytes at a multiple of 8 within the block. -/
def accessSupported (size off : Nat) : Bool := size == 8 && off % 8 == 0 && off < 256

end Sys2Proof
end

