-- ==== Sys2Proof/Decode.lean ====
section
/-! DEFINITION. Decoding a command word (R62), encoding a command (R58), and the host's view of both. -/

namespace Sys2Proof

/-- Why a word is no command: the four cases of R59. -/
inductive Illegal where
  /-- R59 (a): `cw[31:6] != 0`. -/
  | zeroFieldNotZero
  /-- R59 (b): OP is unassigned. -/
  | opUnassigned
  /-- R59 (c): MOD is not 0 for an OP that has no modifier. -/
  | modNotZero
  /-- R59 (d): MOD = 3 for RENDER or COPY. -/
  | modReserved
  deriving DecidableEq, Repr

/-- The fields of a command word (R54). -/
def fieldsOf (cw : CommandWord) : FormatC where
  zero := cw.extractLsb' 6 26
  mod  := cw.extractLsb' 4 2
  op   := cw.extractLsb' 0 4

/-- A command of an OP that takes no modifier (R55). -/
def plainCommand (mod : BitVec 2) (i : Instr) : Except Illegal Instr :=
  if mod = 0 then .ok i else .error .modNotZero

/-- A command chosen by MOD among three (R55). -/
def selectedCommand (mod : BitVec 2) (i0 i1 i2 : Instr) : Except Illegal Instr :=
  if mod = 0 then .ok i0 else if mod = 1 then .ok i1 else if mod = 2 then .ok i2 else .error .modReserved

/-- The decoder's choice by OP, the ZERO field being 0 (R62). -/
def commandOf (op : BitVec 4) (mod : BitVec 2) : Except Illegal Instr :=
  if op = 0x1 then plainCommand mod .accInit
  else if op = 0x2 then plainCommand mod .accUpd
  else if op = 0x3 then plainCommand mod .accPut
  else if op = 0x4 then plainCommand mod .accCmpeq
  else if op = 0x5 then selectedCommand mod .renderOut .renderRef .renderAcc
  else if op = 0x8 then plainCommand mod .csum
  else if op = 0x9 then selectedCommand mod .copyB .copyW .copyF
  else .error .opUnassigned

/-- The total decoder of R62, rejecting by name. -/
def decode (cw : CommandWord) : Except Illegal Instr :=
  let f := fieldsOf cw
  if f.zero ≠ 0 then .error .zeroFieldNotZero else commandOf f.op f.mod

/-- The word of a set of fields: `ZERO ‖ MOD ‖ OP` (R54). -/
def FormatC.word (f : FormatC) : CommandWord := f.zero ++ f.mod ++ f.op

/-- The command word of a command (R58). -/
def encode (i : Instr) : CommandWord := i.fields.word

/-- R17 (b), R28: the command word that a write of `data` to CMD presents. -/
def commandWordOf (data : Word) : CommandWord := data.extractLsb' 0 32

/-- The data of the CMD write that presents an instruction of the table with bits `w`: bits from `nbits` up are 0. -/
def tableData (nbits w : Nat) : Word := BitVec.ofNat 64 (w % 2 ^ nbits % 2 ^ 32)

/-- What the decoder reads from an instruction of the opcode table (bit 0 the least significant, R8). -/
def decodeTableWord (nbits w : Nat) : Option Instr :=
  match decode (commandWordOf (tableData nbits w)) with
  | .ok i => some i
  | .error _ => none

/-- The mnemonic of a command, as R58 spells it. -/
def Instr.mnemonic : Instr → String
  | .accInit => "ACC.INIT"
  | .accUpd => "ACC.UPD"
  | .accPut => "ACC.PUT"
  | .accCmpeq => "ACC.CMPEQ"
  | .renderOut => "RENDER.OUT"
  | .renderRef => "RENDER.REF"
  | .renderAcc => "RENDER.ACC"
  | .csum => "CSUM"
  | .copyB => "COPY.B"
  | .copyW => "COPY.W"
  | .copyF => "COPY.F"

end Sys2Proof
end

