-- ==== Sys2Proof/Machine/Bytes.lean ====
section
/-! DEFINITION. Words as eight bytes, least significant first (R34), and hexadecimal digits (R85). -/

namespace Sys2Proof.Machine

/-- Byte `k` of a word: bits `8k+7 : 8k` (R34, R37). -/
def byteOf (v : Word) (k : Nat) : Byte := v.extractLsb' (8 * k) 8

/-- The word whose byte `k` is `f k`: the byte of the lowest index is the least significant (R34, R29). -/
def wordOfBytes (f : Nat → Byte) : Word :=
  f 7 ++ f 6 ++ f 5 ++ f 4 ++ f 3 ++ f 2 ++ f 1 ++ f 0

/-- `hexdigit` of R85: '0' to '9', then 'a' to 'f' (ASCII, log 17). -/
def hexDigit (d : BitVec 4) : Byte :=
  if d ≤ 9 then 0x30 + d.setWidth 8 else 0x57 + d.setWidth 8

/-- `c_j` of `hex16(v)` in R85: the most significant digit is `j = 0`. -/
def hexChar (v : Word) (j : Nat) : Byte := hexDigit (v.extractLsb' (60 - 4 * j) 4)

/-- `hex16(v)` of R85. -/
def hex16 (v : Word) : List Byte := (List.range 16).map (hexChar v)

end Sys2Proof.Machine
end

