-- ==== Sys2Proof/Config.lean ====
section
/-! DEFINITION. What an implementation or a platform fixes (the model arguments of R7), the free values, and
the value named for registers whose reset value the spec leaves unspecified. -/

namespace Sys2Proof

/-- `P_CHUNK_WORDS` of R7: how many words the copy pipeline reads before it writes (R44). -/
inductive ChunkWords where
  | four
  | eight
  deriving DecidableEq, Repr

/-- The model arguments of R7 and R42. They are held in State so that every statement is about every value of
them; no step changes them. -/
structure Platform where
  /-- `BASE`: address of the register block (R7, R42). -/
  base : Word
  /-- Whether the register block is visible in the data space as well (R42 leaves it open; U8). -/
  blockInDataSpace : Bool
  /-- `P_CHUNK_WORDS` (R7, R44). -/
  chunkWords : ChunkWords
  /-- `P_NT_STORE` (R7, R46). -/
  ntStore : Bool
  /-- `P_HAS_VECTOR` (R7, R102). -/
  hasVector : Bool
  /-- `P_HAS_WARM` (R7, R101). -/
  hasWarm : Bool
  deriving DecidableEq, Repr

/-- DESIGN CHOICE (log 1, unsafe): what SRC, DST, LEN, W0 to W3, REF and TXT hold right after reset, where R31
says only "unspecified". All ones, because R31, R138 and U11 say it must not be zero, and because it is no
legal length and no aligned address: no address is computed from a register nothing has written. -/
def Config.unwrittenValue : Word := BitVec.allOnes 64

/-- DESIGN CHOICE (logs 10, 14): the model arguments in State.reset; statements quantify over all of them. -/
def Config.platform : Platform where
  base := 0
  blockInDataSpace := false
  chunkWords := .four
  ntStore := true
  hasVector := false
  hasWarm := false

/-- FREE VALUE (log 3): the byte data memory holds at an address that nothing has written. -/
opaque Config.powerOnByte : Nat → Byte

/-- FREE VALUE (log 9, R129): whether the destination word of a given index was written before reset cut a copy
short, for the given count of such copies so far. -/
opaque Config.abandonedWordWritten : Nat → Nat → Bool

end Sys2Proof
end

