-- ==== Sys2Proof/Machine/State.lean ====
section
/-! DEFINITION. The state of the DLCA and of what surrounds it, the reasons a step can stop, and reset (spec 10_state.md, R31). -/

namespace Sys2Proof

/-- An accumulator value (R67): two lanes, `(a1, b1)` and `(a2, b2)`. -/
structure Accum where
  a1 : Word
  b1 : Word
  a2 : Word
  b2 : Word
  deriving DecidableEq, Repr

/-- IDENT, the identity value (R67). -/
def Accum.ident : Accum := { a1 := 1, b1 := 0, a2 := 1, b2 := 0 }

/-- A group of four words in buffer order (R57), and the registers W0 to W3 (R21). -/
structure WordGroup where
  w0 : Word
  w1 : Word
  w2 : Word
  w3 : Word
  deriving DecidableEq, Repr

/-- The registers TXT0 to TXT7 (R29). -/
structure Text where
  t0 : Word
  t1 : Word
  t2 : Word
  t3 : Word
  t4 : Word
  t5 : Word
  t6 : Word
  t7 : Word
  deriving DecidableEq, Repr

/-- The failure codes of a command (R112 to R114). -/
inductive FailCode where
  /-- ERR = 1 (R112). -/
  | sizeTooLarge
  /-- ERR = 2 (R113). -/
  | precondition
  /-- ERR = 3 (R114). -/
  | illegalCommand
  deriving DecidableEq, Repr

/-- STATUS (R26); `err = none` is ERR = 0. Its word is `Status.word`. -/
structure Status where
  ok  : Bool
  err : Option FailCode
  eq  : Bool
  deriving DecidableEq, Repr

/-- A destination write the engine has issued: the word at `addr` is to hold `value` (R30 (c)). -/
structure IssuedWrite where
  addr : Nat
  value : Word
  deriving DecidableEq, Repr

/-- What the engine holds while a CSUM or COPY.* runs, and only then (R30). -/
structure Engine where
  /-- POS: the index of the next group (R22, R30 (a)). -/
  pos : Nat
  /-- The words read of the current chunk, in buffer order (R30 (b)). -/
  chunk : List Word
  /-- The destination writes issued but not yet performed in data memory, oldest first (R30 (c); log 7). -/
  pending : List IssuedWrite
  /-- The accumulator under construction, `s` of R89 and R99. -/
  sum : Accum
  /-- How many accesses this command has made (the model's own, for R49; log 8). -/
  tick : Nat
  deriving DecidableEq, Repr

/-- Which registers of unspecified reset value have been written since reset (R138). -/
structure Written where
  src : Bool
  dst : Bool
  len : Bool
  w0 : Bool
  w1 : Bool
  w2 : Bool
  w3 : Bool
  refA1 : Bool
  refA2 : Bool
  refB1 : Bool
  refB2 : Bool
  txt : Bool
  deriving DecidableEq, Repr

namespace Machine

/-- Why the machine stops with a fault. -/
inductive Fault where
  /-- Raised by an engine access (CSUM, COPY.*) that data memory does not admit: the engine is stuck, the command
  never completes and no code is produced (R49 (c), R126, U10). Safe: nothing is proved of a state after it. -/
  | stuckAccess (kind : AccessKind) (addr : Nat)
  deriving DecidableEq, Repr

/-- Why the machine gives a move no meaning. -/
inductive Refusal where
  /-- Raised by an arm of exec whose instruction has no meaning yet. Safe. -/
  | notModelled (mnemonic : String)
  /-- Raised by a control-port access that is not 8 bytes, not aligned or outside the block (R17 (a), U9: refuse). Safe. -/
  | unsupportedAccess (size off : Nat)
  /-- Raised by CSUM and COPY.* when a buffer that passed every check covers the register block, and the platform
  makes the block visible in the data space (R42, U8: refuse). Safe. -/
  | bufferOverRegisterBlock
  deriving DecidableEq, Repr

/-- The whole state (10_state.md), with the data memory and the outside world's pending events. -/
structure State where
  /-- STATUS (R26). -/
  status : Status
  /-- SRC (R23). -/
  src : Word
  /-- DST (R23). -/
  dst : Word
  /-- LEN (R24). -/
  len : Word
  /-- CNT, bits [18:0] (R25). -/
  cnt : BitVec 19
  /-- W0 to W3 (R21). -/
  w : WordGroup
  /-- ACC, the working accumulator (R18). -/
  acc : Accum
  /-- OUT, the output slot (R19). -/
  out : Accum
  /-- REF, the reference accumulator (R20). -/
  ref : Accum
  /-- TXT0 to TXT7 (R29). -/
  txt : Text
  /-- The hidden state of a running CSUM or COPY.* (R30); none when no command runs. -/
  engine : Option Engine
  /-- Data memory (R33): the bytes something has written, by address. -/
  mem : List Host.Cell
  /-- The regions at which data memory does not at present admit the engine's accesses (R42, R49 (c); log 4). -/
  holes : List Region
  /-- Written since reset (R138). -/
  written : Written
  /-- The model arguments (R7, R42). -/
  platform : Platform
  /-- The model's own: events of the outside world still to come, oldest first (log 11). -/
  inbox : List Event
  /-- The model's own: what the control port has returned to reads, oldest first (log 12). -/
  replies : List Word
  /-- The model's own: what other agents and data memory do during the next CSUM or COPY.* that runs, in order (R45, R49;
  logs 7, 8). -/
  rivals : List Rival
  /-- The model's own: the bytes other agents have read from data memory, oldest first (R48 (c), R49 (b); log 8). -/
  observed : List Byte
  /-- The model's own: how many abandoned copies have drawn free values (R129; log 9). -/
  draws : Nat
  deriving DecidableEq, Repr

/-- An accumulator register set that nothing has written (log 1). -/
def unwrittenAccum : Accum where
  a1 := Config.unwrittenValue
  b1 := Config.unwrittenValue
  a2 := Config.unwrittenValue
  b2 := Config.unwrittenValue

/-- W registers that nothing has written (log 1). -/
def unwrittenGroup : WordGroup where
  w0 := Config.unwrittenValue
  w1 := Config.unwrittenValue
  w2 := Config.unwrittenValue
  w3 := Config.unwrittenValue

/-- TXT registers that no RENDER has written (log 1). -/
def unwrittenText : Text where
  t0 := Config.unwrittenValue
  t1 := Config.unwrittenValue
  t2 := Config.unwrittenValue
  t3 := Config.unwrittenValue
  t4 := Config.unwrittenValue
  t5 := Config.unwrittenValue
  t6 := Config.unwrittenValue
  t7 := Config.unwrittenValue

/-- No register written since reset (R138). -/
def nothingWritten : Written where
  src := false
  dst := false
  len := false
  w0 := false
  w1 := false
  w2 := false
  w3 := false
  refA1 := false
  refA2 := false
  refB1 := false
  refB2 := false
  txt := false

/-- The machine right after reset (R31, R127), no event pending, nothing written to data memory and all of it
admitted (log 4). -/
def State.reset : State where
  status := { ok := false, err := none, eq := false }
  src := Config.unwrittenValue
  dst := Config.unwrittenValue
  len := Config.unwrittenValue
  cnt := 0
  w := unwrittenGroup
  acc := Accum.ident
  out := Accum.ident
  ref := unwrittenAccum
  txt := unwrittenText
  engine := none
  mem := []
  holes := []
  written := nothingWritten
  platform := Config.platform
  inbox := []
  replies := []
  rivals := []
  observed := []
  draws := 0

end Machine
end Sys2Proof
end

