-- ==== Sys2Proof/Machine/Accumulator.lean ====
section
/-! DEFINITION. The pure functions of the accumulator: update rule, fold, equality, rendering (spec 40_accumulator.md, R67 to R85). -/

namespace Sys2Proof.Machine

/-- `lane_step` of R68: one word into one lane; `b` adds the new `a`. Addition is modulo 2^64 (R69). -/
def laneStep (lane : Word × Word) (x : Word) : Word × Word := (lane.1 + x, lane.2 + (lane.1 + x))

/-- `upd4` of R68: lane 1 takes the first two words of the group, lane 2 the last two (R70). -/
def upd4 (s : Accum) (g : WordGroup) : Accum :=
  let l1 := laneStep (laneStep (s.a1, s.b1) g.w0) g.w1
  let l2 := laneStep (laneStep (s.a2, s.b2) g.w2) g.w3
  { a1 := l1.1, b1 := l1.2, a2 := l2.1, b2 := l2.2 }

/-- `fold_from` of R71, over the groups of a word sequence in order. Left-over words are not folded; the spec does not
define them, and no command folds such a sequence (R39; log 20). -/
def foldFrom : Accum → List Word → Accum
  | s, w0 :: w1 :: w2 :: w3 :: ws => foldFrom (upd4 s { w0 := w0, w1 := w1, w2 := w2, w3 := w3 }) ws
  | s, _ => s

/-- `fold` of R71. -/
def fold (ws : List Word) : Accum := foldFrom Accum.ident ws

/-- `acc_eq` of R75: all four scalars. -/
def accEq (s t : Accum) : Bool := s.a1 == t.a1 && s.b1 == t.b1 && s.a2 == t.a2 && s.b2 == t.b2

/-- `render` of R84: 64 characters, in the order a1, a2, b1, b2. -/
def render (s : Accum) : List Byte := hex16 s.a1 ++ hex16 s.a2 ++ hex16 s.b1 ++ hex16 s.b2

/-- Eight characters of a text in one register, the first in the low byte (R29, R86). -/
def textReg (t : List Byte) (r : Nat) : Word := wordOfBytes fun k => t.getD (8 * r + k) 0

/-- The registers that hold a text (R29, R86). -/
def packText (t : List Byte) : Text where
  t0 := textReg t 0
  t1 := textReg t 1
  t2 := textReg t 2
  t3 := textReg t 3
  t4 := textReg t 4
  t5 := textReg t 5
  t6 := textReg t 6
  t7 := textReg t 7

end Sys2Proof.Machine
end

