-- ==== Sys2Proof/Machine/Flags.lean ====
section
/-! DEFINITION. STATUS as a word, and how each outcome of a command computes it (R26, R83, R112 to R116). -/

namespace Sys2Proof.Machine

/-- The value of STATUS.ERR (R26). -/
def errCode : Option FailCode → BitVec 2
  | none => 0
  | some .sizeTooLarge => 1
  | some .precondition => 2
  | some .illegalCommand => 3

/-- STATUS as the host reads it: bits [63:4] read 0 (R26). -/
def statusWord (st : Status) : Word :=
  (0 : BitVec 60) ++ BitVec.ofBool st.eq ++ errCode st.err ++ BitVec.ofBool st.ok

/-- The status effect of a failure (R115): EQ unchanged. -/
def failStatus (code : FailCode) (st : Status) : Status := { st with ok := false, err := some code }

/-- The status effect of a success (R116): EQ unchanged. -/
def okStatus (st : Status) : Status := { st with ok := true, err := none }

/-- The EQ flag of ACC.CMPEQ (R83). -/
def eqFlag (out ref : Accum) (st : Status) : Status := { st with eq := accEq out ref }

end Sys2Proof.Machine
end

