-- ==== Sys2Proof/Machine/Memory.lean ====
section
/-! DEFINITION. Data memory as a list of (address, byte) pairs in one canonical form (R33, R34, R36, R37). -/

namespace Sys2Proof.Machine

/-- The canonical form: addresses strictly rising. An address that is not listed has no value, so no entry can equal
what an unlisted address reads as (log 3). -/
abbrev Memory.wf (m : List Host.Cell) : Prop := m.Pairwise (fun c d => c.1 < d.1)

/-- The byte last written at an address; none where nothing has written (R64 "unwritten"). -/
def Memory.read? : List Host.Cell → Nat → Option Byte
  | [], _ => none
  | c :: m, a => if c.1 = a then some c.2 else Memory.read? m a

/-- The byte data memory holds at an address: the one last written, else the free value of log 3. -/
def Memory.byteAt (m : List Host.Cell) (a : Nat) : Byte := (Memory.read? m a).getD (Config.powerOnByte a)

/-- Write one byte, keeping the canonical form. -/
def Memory.write : List Host.Cell → Nat → Byte → List Host.Cell
  | [], a, b => [(a, b)]
  | c :: m, a, b =>
    if a < c.1 then (a, b) :: c :: m
    else if a = c.1 then (a, b) :: m
    else c :: Memory.write m a b

/-- The word at an address: the byte at the lowest address is the least significant (R34). -/
def Memory.wordAt (m : List Host.Cell) (a : Nat) : Word := wordOfBytes fun k => Memory.byteAt m (a + k)

/-- Make the word at an address hold `v` (R37): byte `k` of `v` at `a + k`. -/
def Memory.writeWord (m : List Host.Cell) (a : Nat) (v : Word) : List Host.Cell :=
  (List.range 8).foldl (fun m k => Memory.write m (a + k) (byteOf v k)) m

/-- The `n` words of a buffer, in buffer order (R33). -/
def Memory.wordsAt (m : List Host.Cell) (a n : Nat) : List Word :=
  (List.range n).map fun i => Memory.wordAt m (a + 8 * i)

/-- Make consecutive words hold the values of a list, in ascending order. -/
def Memory.writeWords : List Host.Cell → Nat → List Word → List Host.Cell
  | m, _, [] => m
  | m, a, v :: vs => Memory.writeWords (Memory.writeWord m a v) (a + 8) vs

end Sys2Proof.Machine
end

