-- ==== Sys2Proof/Machine/Operands.lean ====
section
/-! DEFINITION. Operand assembly and entry checks (R56, R57, R90, R98), and the register block: which slot an offset names,
what a read of it returns and what a write of it does (R16, R17). -/

namespace Sys2Proof.Machine

/-- The word count `N = LEN[63:3]`, from all 64 bits of LEN (R56). -/
def wordCount (len : Word) : Nat := (len.extractLsb' 3 61).toNat

/-- Two buffers of `len` bytes overlap (R41); empty buffers never do. -/
def overlaps (src dst len : Nat) : Bool :=
  decide (0 < len) && decide (src < dst + len) && decide (dst < src + len)

/-- The entry checks of CSUM, in the order of R90 and R118. -/
def csumCheck (src len : Word) : Option FailCode :=
  if wordLimit ≤ wordCount len then some .sizeTooLarge
  else if len.toNat % 32 ≠ 0 then some .precondition
  else if src.toNat % 8 ≠ 0 then some .precondition
  else if addressSpace < src.toNat + len.toNat then some .precondition
  else none

/-- The entry checks of COPY.*, in the order of R98 and R118. -/
def copyCheck (src dst len : Word) : Option FailCode :=
  if wordLimit ≤ wordCount len then some .sizeTooLarge
  else if len.toNat % 32 ≠ 0 then some .precondition
  else if src.toNat % 16 ≠ 0 ∨ dst.toNat % 16 ≠ 0 then some .precondition
  else if addressSpace < src.toNat + len.toNat ∨ addressSpace < dst.toNat + len.toNat then some .precondition
  else if overlaps src.toNat dst.toNat len.toNat then some .precondition
  else none

/-- The bound of the manual stream: `CNT + 4 >= 2^19` (R80). -/
def streamFull (cnt : BitVec 19) : Bool := decide (wordLimit ≤ cnt.toNat + 4)

/-- A buffer covers some byte of the register block, where the platform makes the block visible in the data space (R42, U8). -/
def coversBlock (p : Platform) (base len : Nat) : Bool :=
  p.blockInDataSpace && decide (0 < len) && decide (base < p.base.toNat + 256) && decide (p.base.toNat < base + len)

/-- A region refuses this kind of access. -/
def refuses (r : Region) : AccessKind → Bool
  | .read => r.noRead
  | .write => r.noWrite

/-- An 8-byte access touches a byte of a region. -/
def touches (r : Region) (a : Nat) : Bool :=
  decide (0 < r.size) && decide (a < r.base + r.size) && decide (r.base < a + 8)

/-- Data memory admits an 8-byte access (R42, R49 (c)): it touches no region that refuses its kind. -/
def admits (kind : AccessKind) (holes : List Region) (a : Nat) : Bool :=
  holes.all fun r => !(refuses r kind && touches r a)

/-- One scalar of an accumulator register set. -/
def scalarOf (s : Accum) : Scalar → Word
  | .a1 => s.a1
  | .a2 => s.a2
  | .b1 => s.b1
  | .b2 => s.b2

/-- Replace one scalar of an accumulator register set. -/
def setScalar (s : Accum) (x : Scalar) (v : Word) : Accum :=
  match x with
  | .a1 => { s with a1 := v }
  | .a2 => { s with a2 := v }
  | .b1 => { s with b1 := v }
  | .b2 => { s with b2 := v }

/-- The register `W[k]` (R21). -/
def wordReg (g : WordGroup) : Fin 4 → Word
  | 0 => g.w0
  | 1 => g.w1
  | 2 => g.w2
  | 3 => g.w3

/-- Replace the register `W[k]`. -/
def setWordReg (g : WordGroup) (k : Fin 4) (v : Word) : WordGroup :=
  match k with
  | 0 => { g with w0 := v }
  | 1 => { g with w1 := v }
  | 2 => { g with w2 := v }
  | 3 => { g with w3 := v }

/-- The register `TXT[r]` (R29). -/
def textRegOf (t : Text) : Fin 8 → Word
  | 0 => t.t0
  | 1 => t.t1
  | 2 => t.t2
  | 3 => t.t3
  | 4 => t.t4
  | 5 => t.t5
  | 6 => t.t6
  | 7 => t.t7

/-- The slots by index, `off / 8` (R16). In a register set the scalars stand in the order a1, a2, b1, b2. -/
def slotTable : List Slot :=
  [.cmd, .status, .src, .dst, .len, .cnt, .w 0, .w 1, .w 2, .w 3,
   .acc .a1, .acc .a2, .acc .b1, .acc .b2, .out .a1, .out .a2, .out .b1, .out .b2, .ref .a1, .ref .a2, .ref .b1, .ref .b2,
   .txt 0, .txt 1, .txt 2, .txt 3, .txt 4, .txt 5, .txt 6, .txt 7, .reserved, .reserved]

/-- The slot an access names; none where R17 (a) gives the access no meaning. -/
def slotAt (size off : Nat) : Option Slot :=
  if accessSupported size off then slotTable[off / 8]? else none

/-- What `RD` of a slot returns (R16, R17 (b), (d)): CMD and the reserved slots read 0, and so do unused bits. -/
def readSlot (s : State) : Slot → Word
  | .cmd => 0
  | .status => statusWord s.status
  | .src => s.src
  | .dst => s.dst
  | .len => s.len
  | .cnt => s.cnt.setWidth 64
  | .w k => wordReg s.w k
  | .acc x => scalarOf s.acc x
  | .out x => scalarOf s.out x
  | .ref x => scalarOf s.ref x
  | .txt r => textRegOf s.txt r
  | .reserved => 0

/-- A host write marks the register written since reset (R138). -/
def markWritten (wr : Written) : Slot → Written
  | .src => { wr with src := true }
  | .dst => { wr with dst := true }
  | .len => { wr with len := true }
  | .w 0 => { wr with w0 := true }
  | .w 1 => { wr with w1 := true }
  | .w 2 => { wr with w2 := true }
  | .w 3 => { wr with w3 := true }
  | .ref .a1 => { wr with refA1 := true }
  | .ref .a2 => { wr with refA2 := true }
  | .ref .b1 => { wr with refB1 := true }
  | .ref .b2 => { wr with refB2 := true }
  | .cmd | .status | .cnt | .acc _ | .out _ | .txt _ | .reserved => wr

/-- What `WR` of a slot other than CMD does to the registers (R17 (c), (f)): a read-write register takes all 64 bits; a
write to a read-only register or a reserved slot changes nothing. -/
def writeSlot (s : State) (slot : Slot) (v : Word) : State :=
  let s' := { s with written := markWritten s.written slot }
  match slot with
  | .src => { s' with src := v }
  | .dst => { s' with dst := v }
  | .len => { s' with len := v }
  | .w k => { s' with w := setWordReg s.w k v }
  | .ref x => { s' with ref := setScalar s.ref x v }
  | .cmd | .status | .cnt | .acc _ | .out _ | .txt _ | .reserved => s'

end Sys2Proof.Machine
end

