-- ==== Sys2Proof/Machine/Ops.lean ====
section
/-! DEFINITION. The shared operations: how a command ends (R115, R116), and the engine's pass over a buffer (R44, R89, R99). -/

namespace Sys2Proof.Machine

/-- The outcome of a step of this machine. -/
abbrev StepResult := Host.Outcome State Fault Refusal

/-- Go on from a next state; a fault or a refusal stands. -/
def andThen (o : StepResult) (f : State → StepResult) : StepResult :=
  match o with
  | .next s => f s
  | .fault r => .fault r
  | .refused r => .refused r

/-- `raise Fail(code)` (R115): OK and ERR, and nothing else. -/
def raiseFail (code : FailCode) (s : State) : State := { s with status := failStatus code s.status }

/-- `succeed` (R116): OK and ERR. -/
def succeed (s : State) : State := { s with status := okStatus s.status }

/-- The engine before its first beat (R89, R99: `s = IDENT`, `g = 0`). -/
def freshEngine : Engine := { pos := 0, chunk := [], pending := [], sum := Accum.ident, tick := 0 }

/-- The engine's hidden state, while a command runs (R30). -/
def engineOf (s : State) : Engine := s.engine.getD freshEngine

/-- Replace the engine's hidden state. -/
def setEngine (s : State) (e : Engine) : State := { s with engine := some e }

/-- The hidden state with these writes outstanding, if a command runs (R30 (c)). -/
def withPending (e : Option Engine) (ws : List IssuedWrite) : Option Engine := e.map fun e => { e with pending := ws }

/-- The address another agent's act writes, if it writes (R48 (b)). -/
def actWrites : AgentAct → Option Nat
  | .write addr _ => some addr.toNat
  | .read _ => none
  | .perform _ => none
  | .remap _ => none

/-- The address another agent's act reads, if it reads (R48 (c)). -/
def actReads : AgentAct → Option Nat
  | .write _ _ => none
  | .read addr => some addr.toNat
  | .perform _ => none
  | .remap _ => none

/-- The regions another agent's act leaves not admitted, if it changes them (R48 (a), R135). -/
def actRemaps : AgentAct → Option (List Region)
  | .write _ _ => none
  | .read _ => none
  | .perform _ => none
  | .remap holes => some holes

/-- Issued writes are performed in data memory, each as a whole (R37, R47). -/
def performWrites (ws : List IssuedWrite) (m : List Host.Cell) : List Host.Cell :=
  ws.foldl (fun m w => Memory.writeWord m w.addr w.value) m

/-- The outstanding writes to an address: the engine issues at most one to each (R44 (b)). -/
def issuedTo (addr : Word) (ws : List IssuedWrite) : List IssuedWrite := ws.filter fun w => decide (w.addr = addr.toNat)

/-- The outstanding writes to other addresses. -/
def issuedElsewhere (addr : Word) (ws : List IssuedWrite) : List IssuedWrite :=
  ws.filter fun w => !decide (w.addr = addr.toNat)

/-- Data memory after an act, where the writes `ws` are outstanding. An agent's write is to data memory also where the platform
shows the register block in the data space (log 10). -/
def actMem (m : List Host.Cell) (ws : List IssuedWrite) : AgentAct → List Host.Cell
  | .write addr byte => Memory.write m addr.toNat byte
  | .read _ => m
  | .perform addr => performWrites (issuedTo addr ws) m
  | .remap _ => m

/-- The writes outstanding after an act: data memory may perform them in any order (R45; log 7). -/
def actPending (ws : List IssuedWrite) : AgentAct → List IssuedWrite
  | .write _ _ => ws
  | .read _ => ws
  | .perform addr => issuedElsewhere addr ws
  | .remap _ => ws

/-- What another agent's act reads: the byte data memory holds at that moment (R49 (b)), also where the platform shows the
register block in the data space (log 10). -/
def actSees (m : List Host.Cell) (act : AgentAct) : List Byte := ((actReads act).map (Memory.byteAt m)).toList

/-- The regions not admitted after an act. -/
def actHoles (holes : List Region) (act : AgentAct) : List Region := (actRemaps act).getD holes

/-- Data memory after acts, in order, where the writes `ws` are outstanding at first. -/
def memAfter : List Host.Cell → List IssuedWrite → List Rival → List Host.Cell
  | m, _, [] => m
  | m, ws, r :: rs => memAfter (actMem m ws r.act) (actPending ws r.act) rs

/-- The writes still outstanding after acts. -/
def pendingAfter (ws : List IssuedWrite) (rs : List Rival) : List IssuedWrite := rs.foldl (fun ws r => actPending ws r.act) ws

/-- What other agents read, as they act in order. -/
def seenBy : List Host.Cell → List IssuedWrite → List Rival → List Byte
  | _, _, [] => []
  | m, ws, r :: rs => actSees m r.act ++ seenBy (actMem m ws r.act) (actPending ws r.act) rs

/-- The regions not admitted after acts, in order. -/
def holesAfter (holes : List Region) (rs : List Rival) : List Region :=
  rs.foldl (fun holes r => actHoles holes r.act) holes

/-- An act on data memory between commands, when no write of the engine is outstanding (R45). -/
def performAct (act : AgentAct) (s : State) : State :=
  { s with mem := actMem s.mem [] act, holes := actHoles s.holes act, observed := s.observed ++ actSees s.mem act }

/-- The armed acts that are due once `tick` accesses have been performed: acts are performed in the order armed (log 8). -/
def dueBy (tick : Nat) (rs : List Rival) : List Rival := rs.takeWhile fun r => decide (r.after ≤ tick)

/-- The armed acts that are not due yet. -/
def notDueBy (tick : Nat) (rs : List Rival) : List Rival := rs.dropWhile fun r => decide (r.after ≤ tick)

/-- The regions not admitted when the engine makes its access number `tick` (R49 (c)). -/
def holesAt (s : State) (tick : Nat) : List Region := holesAfter s.holes (dueBy tick s.rivals)

/-- The acts `due` are performed, and `later` stay armed. -/
def settleWith (due later : List Rival) (s : State) : State :=
  let ws := (engineOf s).pending
  { s with
    mem := memAfter s.mem ws due
    holes := holesAfter s.holes due
    observed := s.observed ++ seenBy s.mem ws due
    engine := withPending s.engine (pendingAfter ws due)
    rivals := later }

/-- Before an access of the engine, the armed acts that are due have been performed (R49; log 8). -/
def settle (s : State) : State :=
  settleWith (dueBy (engineOf s).tick s.rivals) (notDueBy (engineOf s).tick s.rivals) s

/-- Every armed act has been performed. -/
def settleAll (s : State) : State := settleWith s.rivals [] s

/-- The engine drains: every write it has issued has been performed (R45). -/
def drainWrites (s : State) : State :=
  { s with mem := performWrites (engineOf s).pending s.mem, engine := withPending s.engine [] }

/-- `MemRead(a, 8)` into the chunk (R36, R44 (a)); stuck where data memory does not admit it (R49 (c)). -/
def fetchWord (a : Nat) (s : State) : StepResult :=
  let s := settle s
  let e := engineOf s
  if admits .read s.holes a then
    .next (setEngine s { e with chunk := e.chunk ++ [Memory.wordAt s.mem a], tick := e.tick + 1 })
  else .fault (.stuckAccess .read a)

/-- `MemWrite(a, 8, v)` (R37): the engine issues the write. Data memory admits it now or the engine is stuck (R49 (c)), and performs
it when an act says so, or else when the command completes: R45 leaves open when, and in what order (DESIGN CHOICE, log 7). -/
def memWrite (a : Nat) (v : Word) (s : State) : StepResult :=
  let s := settle s
  let e := engineOf s
  if admits .write s.holes a then
    .next (setEngine s { e with pending := e.pending ++ [{ addr := a, value := v }], tick := e.tick + 1 })
  else .fault (.stuckAccess .write a)

/-- `MemWriteNT(a, 8, v)`: MemWrite with a hint that changes nothing (R46). -/
def memWriteNT (a : Nat) (v : Word) (s : State) : StepResult := memWrite a v s

/-- A destination write: non-temporal when P_NT_STORE is true (R46, R108). -/
def storeWord (a : Nat) (v : Word) (s : State) : StepResult :=
  if s.platform.ntStore then memWriteNT a v s else memWrite a v s

/-- Read `n` consecutive words into the chunk, in ascending order (R44). -/
def fetchWords : Nat → Nat → State → StepResult
  | 0, _, s => .next s
  | n + 1, a, s => andThen (fetchWord a s) (fetchWords n (a + 8))

/-- Write consecutive words, in ascending order (R44). -/
def storeWords : List Word → Nat → State → StepResult
  | [], _, s => .next s
  | v :: vs, a, s => andThen (storeWord a v s) (storeWords vs (a + 8))

/-- Fold the chunk's groups, in buffer order (R44 (f), R71). -/
def foldChunk (s : State) : State :=
  setEngine s { engineOf s with sum := foldFrom (engineOf s).sum (engineOf s).chunk }

/-- The chunk is done: POS moves past its groups (R22). -/
def nextChunk (groups : Nat) (s : State) : State :=
  setEngine s { engineOf s with pos := (engineOf s).pos + groups, chunk := [] }

/-- One chunk of a pass: read its words, fold them, and for a copy write the same values (R44 (c), R99, R107). -/
def runChunk (copy : Bool) (groups : Nat) (s : State) : StepResult :=
  let offset := 32 * (engineOf s).pos
  andThen (fetchWords (4 * groups) (s.src.toNat + offset) s) fun s1 =>
    let s2 := foldChunk s1
    andThen (if copy then storeWords (engineOf s2).chunk (s.dst.toNat + offset) s2 else .next s2) fun s3 =>
      .next (nextChunk groups s3)

/-- The chunks of a pass, one after the other. -/
def runChunks (copy : Bool) : List Nat → State → StepResult
  | [], s => .next s
  | g :: gs, s => andThen (runChunk copy g s) (runChunks copy gs)

/-- The groups of each chunk of a pass over `g` groups: one a chunk for P_CHUNK_WORDS = 4, two for 8, where the last
chunk of an odd number has one (R44, R107). -/
def chunksOf : ChunkWords → Nat → List Nat
  | .four, g => List.replicate g 1
  | .eight, g => List.replicate (g / 2) 2 ++ List.replicate (g % 2) 1

/-- The entry checks of a pass (R90, R98). -/
def entryCheck (copy : Bool) (s : State) : Option FailCode :=
  if copy then copyCheck s.src s.dst s.len else csumCheck s.src s.len

/-- Some buffer of the pass covers the register block (R42, U8). -/
def passCoversBlock (copy : Bool) (s : State) : Bool :=
  coversBlock s.platform s.src.toNat s.len.toNat || (copy && coversBlock s.platform s.dst.toNat s.len.toNat)

/-- The success of a pass (R89, R99): what is armed for it has happened, every write has been performed (R45); the result is in
ACC and OUT, CNT is N, and none of the hidden state survives (R30). -/
def finishPass (s : State) : State :=
  succeed { drainWrites (settleAll s) with
    acc := (engineOf s).sum
    out := (engineOf s).sum
    cnt := BitVec.ofNat 19 (wordCount s.len)
    engine := none }

/-- A whole pass: the checks at entry (R119), then every chunk, then the completion (R89, R99). -/
def streamPass (copy : Bool) (s : State) : StepResult :=
  match entryCheck copy s with
  | some code => .next (raiseFail code s)
  | none =>
    if passCoversBlock copy s then .refused .bufferOverRegisterBlock
    else
      andThen (runChunks copy (chunksOf s.platform.chunkWords (wordCount s.len / 4)) (setEngine s freshEngine))
        fun s' => .next (finishPass s')

/-- Put the text of an accumulator into TXT (R86): the registers, and that TXT has been written (R138). -/
def renderInto (a : Accum) (s : State) : State :=
  succeed { s with txt := packText (render a), written := { s.written with txt := true } }

end Sys2Proof.Machine
end

