-- ==== Sys2Proof/Machine/Acc.lean ====
section
/-! DEFINITION. The ACC commands (R79, R80, R81, R83). -/

namespace Sys2Proof.Machine

/-- ACC.INIT (R79). -/
def execAccInit (s : State) : StepResult := .next (succeed { s with acc := Accum.ident, cnt := 0 })

/-- ACC.UPD (R80): fails when the stream would reach 2^19 words, and then changes nothing but STATUS. -/
def execAccUpd (s : State) : StepResult :=
  if streamFull s.cnt then .next (raiseFail .sizeTooLarge s)
  else .next (succeed { s with acc := upd4 s.acc s.w, cnt := s.cnt + 4 })

/-- ACC.PUT (R81). -/
def execAccPut (s : State) : StepResult := .next (succeed { s with out := s.acc })

/-- ACC.CMPEQ (R83): inequality is no failure. -/
def execAccCmpeq (s : State) : StepResult := .next (succeed { s with status := eqFlag s.out s.ref s.status })

end Sys2Proof.Machine
end

