-- ==== Sys2Proof/Machine/Copy.lean ====
section
/-! DEFINITION. COPY.B, COPY.W and COPY.F (R99 to R102). -/

namespace Sys2Proof.Machine

/-- `copy_common()` (R99): one loop, each word read once and the value read both folded and written (R107). -/
def copyCommon (s : State) : StepResult := streamPass true s

/-- The auxiliary workload of the warm strategy: no operand, no result, no register, no memory access (R101). -/
def warmWorkload (s : State) : State := s

/-- The vector path of the fast strategy: its wide transfers are the same 8-byte accesses in the same order (R35, R102). -/
def vectorPath (s : State) : StepResult := copyCommon s

/-- COPY.B (R100). -/
def execCopyB (s : State) : StepResult := copyCommon s

/-- COPY.W (R101). -/
def execCopyW (s : State) : StepResult :=
  copyCommon (if s.platform.hasWarm then warmWorkload s else s)

/-- COPY.F (R102): falls back to the baseline path where there is no vector implementation. -/
def execCopyF (s : State) : StepResult :=
  if s.platform.hasVector then vectorPath s else copyCommon s

end Sys2Proof.Machine
end

