-- ==== Sys2Proof/Machine/Csum.lean ====
section
/-! DEFINITION. CSUM (R89). -/

namespace Sys2Proof.Machine

/-- CSUM (R89): a read-only pass. -/
def execCsum (s : State) : StepResult := streamPass false s

end Sys2Proof.Machine
end

