-- ==== Sys2Proof/Machine/Render.lean ====
section
/-! DEFINITION. The RENDER commands (R86, R87, R88). -/

namespace Sys2Proof.Machine

/-- RENDER.OUT (R86). -/
def execRenderOut (s : State) : StepResult := .next (renderInto s.out s)

/-- RENDER.REF (R87). -/
def execRenderRef (s : State) : StepResult := .next (renderInto s.ref s)

/-- RENDER.ACC (R88). -/
def execRenderAcc (s : State) : StepResult := .next (renderInto s.acc s)

end Sys2Proof.Machine
end

