-- ==== Sys2Proof/Machine/Dispatch.lean ====
section
/-! DEFINITION. exec: the meaning of each command, one arm a command. -/

namespace Sys2Proof.Machine

def exec (i : Instr) (s : State) : Host.Outcome State Fault Refusal :=
  match i with
  | .accInit => Sys2Proof.Machine.execAccInit s
  | .accUpd => Sys2Proof.Machine.execAccUpd s
  | .accPut => Sys2Proof.Machine.execAccPut s
  | .accCmpeq => Sys2Proof.Machine.execAccCmpeq s
  | .renderOut => Sys2Proof.Machine.execRenderOut s
  | .renderRef => Sys2Proof.Machine.execRenderRef s
  | .renderAcc => Sys2Proof.Machine.execRenderAcc s
  | .csum => Sys2Proof.Machine.execCsum s
  | .copyB => Sys2Proof.Machine.execCopyB s
  | .copyW => Sys2Proof.Machine.execCopyW s
  | .copyF => Sys2Proof.Machine.execCopyF s

end Sys2Proof.Machine
end

