-- ==== Sys2Proof/Machine/Port.lean ====
section
/-! DEFINITION. What each event of the outside world does: control-port reads and writes (R15, R17, R28), reset (R127, R129),
and what others do to data memory (R13 (d), R32, R49). -/

namespace Sys2Proof.Machine

/-- A write to CMD: the command the word decodes to, or ILLEGAL_COMMAND (R28, R114). -/
def runCommandWord (cw : CommandWord) (s : State) : StepResult :=
  match decode cw with
  | .ok i => exec i s
  | .error _ => .next (raiseFail .illegalCommand s)

/-- `WR off, data` (R14 (a), R17, R28). -/
def portWrite (size off : Nat) (data : Word) (s : State) : StepResult :=
  match slotAt size off with
  | none => .refused (.unsupportedAccess size off)
  | some .cmd => runCommandWord (commandWordOf data) s
  | some slot => .next (writeSlot s slot data)

/-- `RD off` (R14 (a), R17 (d), (e)): the value goes to the host, and no register changes. -/
def portRead (size off : Nat) (s : State) : StepResult :=
  match slotAt size off with
  | none => .refused (.unsupportedAccess size off)
  | some slot => .next { s with replies := s.replies ++ [readSlot s slot] }

/-- The reset state of the block (R31, R127); data memory and the outside world are not touched. -/
def resetBlock (s : State) : State :=
  { State.reset with
    mem := s.mem
    holes := s.holes
    platform := s.platform
    inbox := s.inbox
    replies := s.replies
    rivals := s.rivals
    observed := s.observed
    draws := s.draws }

/-- The passes over memory: CSUM reads only (`false`), COPY.* writes as well (`true`); the others make none (R32). -/
def passOf : Instr → Option Bool
  | .csum => some false
  | .copyB => some true
  | .copyW => some true
  | .copyF => some true
  | .accInit => none
  | .accUpd => none
  | .accPut => none
  | .accCmpeq => none
  | .renderOut => none
  | .renderRef => none
  | .renderAcc => none

/-- The first `n` destination words of a copy that reset cut short: each is its old value or the corresponding source
word, a free choice (R129; log 9). A word whose accesses memory does not admit keeps its old value. -/
def mixWords (s : State) : Nat → List Host.Cell
  | 0 => s.mem
  | n + 1 =>
    let a := s.src.toNat + 8 * n
    let d := s.dst.toNat + 8 * n
    if Config.abandonedWordWritten s.draws n && admits .read s.holes a && admits .write s.holes d then
      Memory.writeWord (mixWords s n) d (Memory.wordAt s.mem a)
    else mixWords s n

/-- Reset while the command of `cw` runs (R129): the registers take their reset values, and the destination of a copy is a
mixture. A word that starts no pass over memory leaves data memory alone. -/
def abandonCommand (cw : CommandWord) (s : State) : StepResult :=
  match decode cw with
  | .error _ => .next (resetBlock s)
  | .ok i =>
    match passOf i with
    | none => .next (resetBlock s)
    | some copy =>
      match entryCheck copy s with
      | some _ => .next (resetBlock s)
      | none =>
        if passCoversBlock copy s then .refused .bufferOverRegisterBlock
        else if copy then
          .next (resetBlock { s with mem := mixWords s (wordCount s.len), draws := s.draws + 1 })
        else .next (resetBlock s)

/-- What an event does. -/
def handle (ev : Event) (s : State) : StepResult :=
  match ev with
  | .wr size off data => portWrite size off data s
  | .rd size off => portRead size off s
  | .reset => .next (resetBlock s)
  | .cmdReset data => abandonCommand (commandWordOf data) s
  | .agent act => .next (performAct act s)
  | .race acts => .next { s with rivals := s.rivals ++ acts }

/-- The event at the head of the inbox is taken and handled; with none pending the block is idle and nothing changes (R141). -/
def takeEvent (s : State) : StepResult :=
  match s.inbox with
  | [] => .next s
  | ev :: rest => handle ev { s with inbox := rest }

/-- Put a CMD write of an instruction of the opcode table at the head of the inbox (log 11). -/
def withCommandFirst (s : State) (data : Word) : State := { s with inbox := .wr 8 0 data :: s.inbox }

end Sys2Proof.Machine
end

