-- ==== Sys2Proof/Machine/Step.lean ====
section
/-! DEFINITION. One step of the machine, and where a step finds its next command. -/

namespace Sys2Proof.Machine

/-- One step: the next event of the outside world is taken and handled to its end (R10, R15). -/
def step (s : State) : Host.Outcome State Fault Refusal := takeEvent s

/-- `s` with a write of an opcode-table word to CMD as the very next event (R28; logs 11, 21). -/
def State.withFetchWord (s : State) (nbits w : Nat) : State := withCommandFirst s (tableData nbits w)

end Sys2Proof.Machine
end

