-- ==== Sys2Proof/Machine/Sums.lean ====
section
/-! DEFINITION. The words each lane consumes, and the sums of the closed form (R70, R72, R74). -/

namespace Sys2Proof.Machine

/-- The words lane 1 consumes: positions 0 and 1 of each group (R70, R72). -/
def lane1 : List Word → List Word
  | w0 :: w1 :: _ :: _ :: ws => w0 :: w1 :: lane1 ws
  | _ => []

/-- The words lane 2 consumes: positions 2 and 3 of each group (R70, R72). -/
def lane2 : List Word → List Word
  | _ :: _ :: w2 :: w3 :: ws => w2 :: w3 :: lane2 ws
  | _ => []

/-- The sum of a lane's words, modulo 2^64 (R72). -/
def plainSum : List Word → Word
  | [] => 0
  | y :: ys => y + plainSum ys

/-- The weighted sum of a lane's words, modulo 2^64: the first of `n` has weight `n`, the last weight 1 (R72). -/
def weightedSum : List Word → Word
  | [] => 0
  | y :: ys => BitVec.ofNat 64 (ys.length + 1) * y + weightedSum ys

/-- The unreduced sum of a lane's words (R74). -/
def exactSum : List Word → Nat
  | [] => 0
  | y :: ys => y.toNat + exactSum ys

/-- The unreduced weighted sum of a lane's words (R74). -/
def exactWeightedSum : List Word → Nat
  | [] => 0
  | y :: ys => (ys.length + 1) * y.toNat + exactWeightedSum ys

/-- The words of a group in buffer order (R57). -/
def groupWords (g : WordGroup) : List Word := [g.w0, g.w1, g.w2, g.w3]

end Sys2Proof.Machine
end

