-- ==== Sys2Proof/Machine/Programs.lean ====
section
/-! DEFINITION. Host programs: sequences of transactions (R63, R142), the pseudo-instructions of R65, and the listing notation. -/

namespace Sys2Proof.Machine

/-- The host issues one event, before anything else that is pending, and the machine steps (R15, R63). -/
def issue (ev : Event) (s : State) : StepResult := step { s with inbox := ev :: s.inbox }

/-- A program: each event completes before the next is issued (R63); the run ends when the last has completed (R142). -/
def runEvents : List Event → State → StepResult
  | [], s => .next s
  | ev :: evs, s => andThen (issue ev s) (runEvents evs)

/-- `WR` of a register by its offset. -/
def wr (off : Nat) (v : Word) : Event := .wr 8 off v

/-- `RD` of a register by its offset. -/
def rd (off : Nat) : Event := .rd 8 off

/-- The line `<MNEMONIC>` of R63: `WR CMD, <command word>`. -/
def command (i : Instr) : Event := wr 0x00 ((encode i).setWidth 64)

/-- `RD OUT_A1 ; RD OUT_A2 ; RD OUT_B1 ; RD OUT_B2` of R65. -/
def outReads : List Event := [rd 0x70, rd 0x78, rd 0x80, rd 0x88]

/-- The last value the control port returned. -/
def lastReply (s : State) : Word := s.replies.getLastD 0

/-- A call of R65: the given transactions end in `RD STATUS`, and only if OK the results are read. -/
def callThenRead (call : List Event) (s : State) : StepResult :=
  andThen (runEvents call s) fun s1 =>
    if (lastReply s1).getLsbD 0 then runEvents outReads s1 else .next s1

/-- `CHECKSUM src, len` of R65. -/
def pseudoChecksum (src len : Word) (s : State) : StepResult :=
  callThenRead [wr 0x10 src, wr 0x20 len, command .csum, rd 0x08] s

/-- `CCOPY.B`, `CCOPY.W`, `CCOPY.F` of R65, by the command each issues; the destination comes first (R66). -/
def pseudoCopy (copy : Instr) (dst src len : Word) (s : State) : StepResult :=
  callThenRead [wr 0x18 dst, wr 0x10 src, wr 0x20 len, command copy, rd 0x08] s

/-- `RENDER` of R65. -/
def pseudoRender : List Event :=
  [command .renderOut, rd 0xB0, rd 0xB8, rd 0xC0, rd 0xC8, rd 0xD0, rd 0xD8, rd 0xE0, rd 0xE8]

/-- `EQUALS a1, a2, b1, b2` of R65; the result is bit 3 of the last reply. -/
def pseudoEquals (a1 a2 b1 b2 : Word) : List Event :=
  [wr 0x90 a1, wr 0x98 a2, wr 0xA0 b1, wr 0xA8 b2, command .accCmpeq, rd 0x08]

/-- The transactions that fold one group of a manual stream (R65). -/
def groupEvents (g : WordGroup) : List Event :=
  [wr 0x30 g.w0, wr 0x38 g.w1, wr 0x40 g.w2, wr 0x48 g.w3, command .accUpd]

/-- `STREAM` of R65 over a sequence of groups. -/
def pseudoStream (gs : List WordGroup) : List Event :=
  command .accInit :: (gs.flatMap groupEvents ++ [command .accPut])

/-- Read one register and write what it held to another. -/
def moveReg (source target : Nat) (s : State) : StepResult :=
  andThen (issue (rd source) s) fun s1 => issue (wr target (lastReply s1)) s1

/-- `SAVEREF` of R65: keep a result as the reference. -/
def pseudoSaveRef (s : State) : StepResult :=
  andThen (moveReg 0x70 0x90 s) fun s1 =>
    andThen (moveReg 0x78 0x98 s1) fun s2 =>
      andThen (moveReg 0x80 0xA0 s2) (moveReg 0x88 0xA8)

/-- A hexadecimal digit of a listing's value. -/
def listingDigit (d : BitVec 4) : Char := Char.ofNat (hexDigit d).toNat

/-- A hexadecimal digit of a listing's offset, upper case. -/
def offsetDigit (d : Nat) : Char := if d < 10 then Char.ofNat (48 + d) else Char.ofNat (55 + d)

/-- The two digits of an offset. -/
def offsetDigits (off : Nat) : List Char := [offsetDigit (off / 16), offsetDigit (off % 16)]

/-- The line of a supported transaction in a listing (R63): `W <offset> <16 digits>` or `R <offset>`. -/
def listing : Event → Option (List Char)
  | .wr size off data =>
    if accessSupported size off then
      some (['W', ' '] ++ offsetDigits off ++ [' '] ++
        (List.range 16).map fun j => listingDigit (data.extractLsb' (60 - 4 * j) 4))
    else none
  | .rd size off => if accessSupported size off then some (['R', ' '] ++ offsetDigits off) else none
  | .reset => none
  | .cmdReset _ => none
  | .agent _ => none
  | .race _ => none

/-- The memory of `MEM[<address>] = <word>` lines (R64). -/
def memoryOfWords (ls : List (Nat × Word)) : List Host.Cell :=
  ls.foldl (fun m l => Memory.writeWord m l.1 l.2) []

end Sys2Proof.Machine
end

