-- ==== Sys2Proof/Safety.lean ====
section
/-! DEFINITION. What counts as a safe use of the block: the host's obligations of R48, R130 and R138; the invariant of
the machine; and when two states differ only in registers that nothing has written. -/

namespace Sys2Proof.Machine

/-- The registers a command reads have been written since reset (R130, R138). -/
def operandsWritten (i : Instr) (wr : Written) : Bool :=
  match i with
  | .accInit => true
  | .accUpd => wr.w0 && wr.w1 && wr.w2 && wr.w3
  | .accPut => true
  | .accCmpeq => wr.refA1 && wr.refA2 && wr.refB1 && wr.refB2
  | .renderOut => true
  | .renderRef => wr.refA1 && wr.refA2 && wr.refB1 && wr.refB2
  | .renderAcc => true
  | .csum => wr.src && wr.len
  | .copyB => wr.src && wr.dst && wr.len
  | .copyW => wr.src && wr.dst && wr.len
  | .copyF => wr.src && wr.dst && wr.len

/-- Data memory admits the engine's access to every word of a buffer (R48 (a)). -/
abbrev bufferAdmitted (kind : AccessKind) (holes : List Region) (base words : Nat) : Prop :=
  ∀ i < words, admits kind holes (base + 8 * i) = true

/-- Data memory admits every access of a pass (R48 (a)). -/
abbrev buffersAdmitted (copy : Bool) (s : State) (holes : List Region) : Prop :=
  bufferAdmitted .read holes s.src.toNat (wordCount s.len) ∧
  (copy = true → bufferAdmitted .write holes s.dst.toNat (wordCount s.len))

/-- The buffers of a pass are memory that admits the engine's accesses (R48 (a)), and none covers the register block (R42). -/
abbrev buffersValid (copy : Bool) (s : State) : Prop :=
  buffersAdmitted copy s s.holes ∧ passCoversBlock copy s = false

/-- An address does not lie in the destination of a pass (R48 (c)). -/
abbrev outsideDestination (copy : Bool) (s : State) (a : Nat) : Prop :=
  copy = true → a < s.dst.toNat ∨ s.dst.toNat + s.len.toNat ≤ a

/-- An address lies in neither buffer of a pass (R48 (b)). -/
abbrev outsideBuffers (copy : Bool) (s : State) (a : Nat) : Prop :=
  (a < s.src.toNat ∨ s.src.toNat + s.len.toNat ≤ a) ∧ outsideDestination copy s a

/-- What another agent does during a pass leaves the buffers alone: it leaves them memory that admits the engine's accesses
(R48 (a), R135), writes no byte of them (R48 (b)) and reads none of a copy's destination (R48 (c)). The source it may read, and
to memory outside the buffers it may do anything. -/
abbrev actSpares (copy : Bool) (s : State) (act : AgentAct) : Prop :=
  (∀ holes ∈ actRemaps act, buffersAdmitted copy s holes) ∧ (∀ a ∈ actWrites act, outsideBuffers copy s a) ∧
  ∀ a ∈ actReads act, outsideDestination copy s a

/-- The state with everything armed for the next pass done: what other agents will have done when it completes. No write of the
engine is outstanding, so data memory has none to perform. -/
def othersDone (s : State) : State := settleAll { s with engine := none }

/-- The host keeps R48 for a pass: the buffers are valid when it starts, and whatever other agents do during it spares them. -/
abbrev hostKeeps (copy : Bool) (s : State) : Prop :=
  buffersValid copy s ∧ ∀ r ∈ s.rivals, actSpares copy s r.act

/-- Another agent reads the eight bytes of the word at `addr`, all at one moment (R47). -/
def readOfWord (moment : Nat) (addr : Word) : List Rival :=
  (List.range 8).map fun k => { after := moment, act := .read (addr + BitVec.ofNat 64 k) }

/-- The engine's accesses to consecutive words, in ascending order. -/
def wordAccesses (kind : AccessKind) (a n : Nat) : List (AccessKind × Nat) :=
  (List.range n).map fun i => (kind, a + 8 * i)

/-- The accesses of a chunk of `g` groups at byte offset `offset` of the buffers: its reads, then a copy's writes (R44). -/
def chunkAccesses (copy : Bool) (src dst offset g : Nat) : List (AccessKind × Nat) :=
  wordAccesses .read (src + offset) (4 * g) ++ if copy then wordAccesses .write (dst + offset) (4 * g) else []

/-- The accesses of the chunks of a pass, from group `p` on. -/
def chunksAccesses (copy : Bool) (src dst : Nat) : Nat → List Nat → List (AccessKind × Nat)
  | _, [] => []
  | p, g :: gs => chunkAccesses copy src dst (32 * p) g ++ chunksAccesses copy src dst (p + g) gs

/-- The accesses of a pass in the canonical order (R44; log 6). -/
def passAccesses (copy : Bool) (s : State) : List (AccessKind × Nat) :=
  chunksAccesses copy s.src.toNat s.dst.toNat 0 (chunksOf s.platform.chunkWords (wordCount s.len / 4))

/-- The first of these accesses, numbered from `tick` on, that data memory does not admit when it is made (R49 (c)). -/
def firstRefused (s : State) : Nat → List (AccessKind × Nat) → Option (AccessKind × Nat)
  | _, [] => none
  | tick, x :: xs => if admits x.1 (holesAt s tick) x.2 then firstRefused s (tick + 1) xs else some x

/-- A command whose failure or success, registers and memory the spec fixes (R48, R130, R138). -/
abbrev safeCommand (i : Instr) (s : State) : Prop :=
  operandsWritten i s.written = true ∧
  ∀ copy ∈ passOf i, entryCheck copy s = none → hostKeeps copy s

/-- What every step keeps: memory in canonical form; CNT a multiple of 4 (R25); no hidden state of the engine between
commands (R30); OK never set together with an error code (R27). -/
abbrev State.Inv (s : State) : Prop :=
  Memory.wf s.mem ∧ s.cnt.toNat % 4 = 0 ∧ s.engine = none ∧ (s.status.ok = true → s.status.err = none)

/-- A register's value, or the named value where nothing has written it. -/
def ifWritten (written : Bool) (v : Word) : Word := if written then v else Config.unwrittenValue

/-- The TXT registers, or the named value where no RENDER has written them. -/
def textIfWritten (written : Bool) (t : Text) : Text := if written then t else unwrittenText

/-- A state with the content of every register that nothing has written since reset replaced by the named value: two
states agree up to unspecified register values (R31, R138) when these are equal. -/
def forgetUnwritten (s : State) : State :=
  { s with
    src := ifWritten s.written.src s.src
    dst := ifWritten s.written.dst s.dst
    len := ifWritten s.written.len s.len
    w := { w0 := ifWritten s.written.w0 s.w.w0, w1 := ifWritten s.written.w1 s.w.w1,
           w2 := ifWritten s.written.w2 s.w.w2, w3 := ifWritten s.written.w3 s.w.w3 }
    ref := { a1 := ifWritten s.written.refA1 s.ref.a1, b1 := ifWritten s.written.refB1 s.ref.b1,
             a2 := ifWritten s.written.refA2 s.ref.a2, b2 := ifWritten s.written.refB2 s.ref.b2 }
    txt := textIfWritten s.written.txt s.txt }

/-- The same for the outcome of a step. -/
def forgetInOutcome (o : StepResult) : StepResult := andThen o fun s => .next (forgetUnwritten s)

end Sys2Proof.Machine
end

