-- ==== Sys2Proof/Certificates/Slice0/Obligations.lean ====
section
/-! DEFINITION. The statements for the provers, one def each; every docstring names the rule of spec/ it formalises. -/

open Sys2Proof Sys2Proof.Machine

/-! ### Encoding -/

/-- R58: the decoder selects exactly the row whose command word the word is, over all 2^32 words. -/
def Obligations.DecoderSelectsTableRow : Prop :=
  ∀ cw : CommandWord,
    (decode cw = .ok .accInit ↔ cw = 0x00000001) ∧
    (decode cw = .ok .accUpd ↔ cw = 0x00000002) ∧
    (decode cw = .ok .accPut ↔ cw = 0x00000003) ∧
    (decode cw = .ok .accCmpeq ↔ cw = 0x00000004) ∧
    (decode cw = .ok .renderOut ↔ cw = 0x00000005) ∧
    (decode cw = .ok .renderRef ↔ cw = 0x00000015) ∧
    (decode cw = .ok .renderAcc ↔ cw = 0x00000025) ∧
    (decode cw = .ok .csum ↔ cw = 0x00000008) ∧
    (decode cw = .ok .copyB ↔ cw = 0x00000009) ∧
    (decode cw = .ok .copyW ↔ cw = 0x00000019) ∧
    (decode cw = .ok .copyF ↔ cw = 0x00000029)

/-- R62: decode and encode are inverse: a word decodes to a command if and only if it is that command's encoding. -/
def Obligations.DecodeIsInverseOfEncode : Prop :=
  ∀ (cw : CommandWord) (i : Instr), decode cw = .ok i ↔ cw = encode i

/-- R59: which illegal words each of its four cases names, in the order of R62's decoder. -/
def Obligations.IllegalWordsRejectedByCase : Prop :=
  ∀ cw : CommandWord,
    (decode cw = .error .zeroFieldNotZero ↔ cw.toNat / 64 ≠ 0) ∧
    (decode cw = .error .opUnassigned ↔ cw.toNat / 64 = 0 ∧
      cw.toNat % 16 ∈ [0x0, 0x6, 0x7, 0xA, 0xB, 0xC, 0xD, 0xE, 0xF]) ∧
    (decode cw = .error .modNotZero ↔ cw.toNat / 64 = 0 ∧
      cw.toNat % 16 ∈ [0x1, 0x2, 0x3, 0x4, 0x8] ∧ cw.toNat / 16 ≠ 0) ∧
    (decode cw = .error .modReserved ↔ cw.toNat / 64 = 0 ∧ cw.toNat % 16 ∈ [0x5, 0x9] ∧ cw.toNat / 16 = 3)

/-- R114: a word that is none of the eleven fails with ILLEGAL_COMMAND when written to CMD, and changes nothing else. -/
def Obligations.IllegalWordFailsAndChangesNothingElse : Prop :=
  ∀ (s : State) (data : Word) (rest : List Event),
    commandWordOf data ∉ ([0x01, 0x02, 0x03, 0x04, 0x05, 0x15, 0x25, 0x08, 0x09, 0x19, 0x29] : List CommandWord) →
    s.inbox = .wr 8 0x00 data :: rest →
    step s = .next { s with inbox := rest
                            status := { ok := false, err := some .illegalCommand, eq := s.status.eq } }

/-- Sanity: words written out from R58 decode to the commands they stand for, one of each family. -/
def Obligations.SampleWordsDecode : Prop :=
  decodeTableWord 32 0x00000002 = some .accUpd ∧ decodeTableWord 32 0x00000025 = some .renderAcc ∧
  decodeTableWord 32 0x00000008 = some .csum ∧ decodeTableWord 32 0x00000029 = some .copyF ∧
  decodeTableWord 32 0x00000039 = none

/-! ### The step -/

/-- A write to CMD of a word that decodes to `i` runs exactly `exec i`, the event being taken from the inbox; with no
event pending nothing changes. -/
def Obligations.StepRunsDecodedCommand : Prop :=
  (∀ (s : State) (data : Word) (rest : List Event) (i : Instr),
    s.inbox = .wr 8 0x00 data :: rest → decode (commandWordOf data) = .ok i →
    step s = exec i { s with inbox := rest }) ∧
  ∀ s : State, s.inbox = [] → step s = .next s

/-- The instruction that withFetchWord places is the one the next step runs. -/
def Obligations.PlacedWordRunsNext : Prop :=
  ∀ (s : State) (nbits w : Nat) (i : Instr),
    decodeTableWord nbits w = some i → step (s.withFetchWord nbits w) = exec i s

/-- R17 (a), U9: an access of another size, unaligned or outside the block is refused by name, for reads and writes. -/
def Obligations.UnsupportedAccessRefused : Prop :=
  ∀ (s : State) (size off : Nat) (data : Word), size ≠ 8 ∨ off % 8 ≠ 0 ∨ 0xF8 < off →
    issue (.wr size off data) s = .refused (.unsupportedAccess size off) ∧
    issue (.rd size off) s = .refused (.unsupportedAccess size off)

/-- R16, R17 (b), (d), (e): what a read of each offset returns; it changes no register and no byte of memory. -/
def Obligations.ReadReturnsRegisterAndChangesNothing : Prop :=
  ∀ (s : State) (v : Word) (off : Nat),
    (off, v) ∈ [(0x00, 0), (0x08, statusWord s.status), (0x10, s.src), (0x18, s.dst), (0x20, s.len),
      (0x28, BitVec.ofNat 64 s.cnt.toNat), (0x30, s.w.w0), (0x38, s.w.w1), (0x40, s.w.w2), (0x48, s.w.w3),
      (0x50, s.acc.a1), (0x58, s.acc.a2), (0x60, s.acc.b1), (0x68, s.acc.b2),
      (0x70, s.out.a1), (0x78, s.out.a2), (0x80, s.out.b1), (0x88, s.out.b2),
      (0x90, s.ref.a1), (0x98, s.ref.a2), (0xA0, s.ref.b1), (0xA8, s.ref.b2),
      (0xB0, s.txt.t0), (0xB8, s.txt.t1), (0xC0, s.txt.t2), (0xC8, s.txt.t3), (0xD0, s.txt.t4), (0xD8, s.txt.t5),
      (0xE0, s.txt.t6), (0xE8, s.txt.t7), (0xF0, 0), (0xF8, 0)] →
    issue (.rd 8 off) s = .next { s with replies := s.replies ++ [v] }

/-- R17 (f): a write to a read-write register replaces all 64 bits of it and does nothing else but mark it written (R138). -/
def Obligations.OperandWriteReplacesRegister : Prop :=
  ∀ (s : State) (v : Word),
    issue (.wr 8 0x10 v) s = .next { s with src := v, written := { s.written with src := true } } ∧
    issue (.wr 8 0x18 v) s = .next { s with dst := v, written := { s.written with dst := true } } ∧
    issue (.wr 8 0x20 v) s = .next { s with len := v, written := { s.written with len := true } } ∧
    issue (.wr 8 0x30 v) s = .next { s with w := { s.w with w0 := v }, written := { s.written with w0 := true } } ∧
    issue (.wr 8 0x38 v) s = .next { s with w := { s.w with w1 := v }, written := { s.written with w1 := true } } ∧
    issue (.wr 8 0x40 v) s = .next { s with w := { s.w with w2 := v }, written := { s.written with w2 := true } } ∧
    issue (.wr 8 0x48 v) s = .next { s with w := { s.w with w3 := v }, written := { s.written with w3 := true } } ∧
    issue (.wr 8 0x90 v) s = .next { s with ref := { s.ref with a1 := v }, written := { s.written with refA1 := true } } ∧
    issue (.wr 8 0x98 v) s = .next { s with ref := { s.ref with a2 := v }, written := { s.written with refA2 := true } } ∧
    issue (.wr 8 0xA0 v) s = .next { s with ref := { s.ref with b1 := v }, written := { s.written with refB1 := true } } ∧
    issue (.wr 8 0xA8 v) s = .next { s with ref := { s.ref with b2 := v }, written := { s.written with refB2 := true } }

/-- R17 (c): a write to a read-only register or a reserved offset changes nothing. -/
def Obligations.ReadOnlyWriteIgnored : Prop :=
  ∀ (s : State) (v : Word) (off : Nat),
    off ∈ [0x08, 0x28, 0x50, 0x58, 0x60, 0x68, 0x70, 0x78, 0x80, 0x88,
      0xB0, 0xB8, 0xC0, 0xC8, 0xD0, 0xD8, 0xE0, 0xE8, 0xF0, 0xF8] →
    issue (.wr 8 off v) s = .next s

/-- R26: where the fields stand in STATUS as the host reads it. -/
def Obligations.StatusWordLayout : Prop :=
  ∀ st : Status, (statusWord st).toNat =
    st.ok.toNat + 2 * (match st.err with
      | none => 0
      | some .sizeTooLarge => 1
      | some .precondition => 2
      | some .illegalCommand => 3) + 8 * st.eq.toNat

/-! ### Reset -/

/-- R31, where it gives a value: ACC, OUT, CNT, STATUS right after reset, no command running, nothing written (R138). -/
def Obligations.ResetLeavesStatedValues : Prop :=
  State.reset.acc = { a1 := 1, b1 := 0, a2 := 1, b2 := 0 } ∧ State.reset.out = { a1 := 1, b1 := 0, a2 := 1, b2 := 0 } ∧
  State.reset.cnt = 0 ∧ State.reset.status = { ok := false, err := none, eq := false } ∧
  State.reset.engine = none ∧ State.reset.written = nothingWritten

/-- R128: what may be relied on right after reset, from any state in which reset is asserted. -/
def Obligations.RightAfterReset : Prop :=
  ∀ s : State, ∃ t, issue .reset s = .next t ∧
    (∀ off v, (off, v) ∈ ([(0x08, 0), (0x28, 0), (0x50, 1), (0x58, 1), (0x60, 0), (0x68, 0),
      (0x70, 1), (0x78, 1), (0x80, 0), (0x88, 0)] : List (Nat × Word)) →
      issue (.rd 8 off) t = .next { t with replies := t.replies ++ [v] }) ∧
    (∀ g : WordGroup, exec .accUpd { t with w := g } =
      andThen (exec .accInit { t with w := g }) (exec .accUpd)) ∧
    (∃ u, exec .accPut t = .next u ∧ u.out = Accum.ident) ∧
    t.mem = s.mem

/-- R129: reset asserted while a COPY.* runs. The registers take their reset values; each destination word is its old
value or the corresponding source word; no other byte changes. -/
def Obligations.AbandonedCopyLeavesMixture : Prop :=
  ∀ (s : State) (data : Word) (i : Instr), decode (commandWordOf data) = .ok i → i ∈ [Instr.copyB, .copyW, .copyF] →
    entryCheck true s = none → passCoversBlock true s = false →
    ∃ m, issue (.cmdReset data) s = .next (resetBlock { s with mem := m, draws := s.draws + 1 }) ∧
      (∀ k < wordCount s.len,
        Memory.wordAt m (s.dst.toNat + 8 * k) = Memory.wordAt s.mem (s.dst.toNat + 8 * k) ∨
        Memory.wordAt m (s.dst.toNat + 8 * k) = Memory.wordAt s.mem (s.src.toNat + 8 * k)) ∧
      ∀ a, a < s.dst.toNat ∨ s.dst.toNat + s.len.toNat ≤ a → Memory.byteAt m a = Memory.byteAt s.mem a

/-! ### Invariants and whole-machine rules -/

/-- Every step keeps the invariant: memory in canonical form, CNT a multiple of 4 (R25), no hidden engine state between
commands (R30), OK never with an error code (R27). -/
def Obligations.EveryStepKeepsInvariant : Prop :=
  ∀ s t : State, s.Inv → step s = .next t → t.Inv

/-- The invariant holds right after reset. -/
def Obligations.ResetMeetsInvariant : Prop := State.reset.Inv

/-- R27: after any command OK = 1 if and only if ERR = 0, and after reset both are 0. -/
def Obligations.OkExactlyWhenNoError : Prop :=
  (∀ (s t : State) (data : Word), issue (.wr 8 0x00 data) s = .next t →
    (t.status.ok = true ↔ t.status.err = none)) ∧
  ∀ s t : State, issue .reset s = .next t → t.status.ok = false ∧ t.status.err = none

/-- R26, last sentence: EQ keeps its value across every command other than ACC.CMPEQ, failed ones included. -/
def Obligations.OnlyCmpeqWritesEq : Prop :=
  ∀ (s t : State) (data : Word), issue (.wr 8 0x00 data) s = .next t →
    decode (commandWordOf data) ≠ .ok .accCmpeq → t.status.eq = s.status.eq

/-- R115, R119: a command that ends in failure changes STATUS.OK and STATUS.ERR and nothing else, memory included. -/
def Obligations.FailureChangesOnlyStatus : Prop :=
  ∀ (i : Instr) (s t : State), exec i s = .next t → t.status.ok = false →
    ∃ code, t = { s with status := { ok := false, err := some code, eq := s.status.eq } }

/-- R20, R21, R23, R24: no command writes SRC, DST, LEN, W or REF; nor does one touch the platform, the pending events, what the
port has returned or, unless another agent is armed to, what memory admits. -/
def Obligations.CommandsKeepOperandRegisters : Prop :=
  ∀ (i : Instr) (s t : State), exec i s = .next t →
    t.src = s.src ∧ t.dst = s.dst ∧ t.len = s.len ∧ t.w = s.w ∧ t.ref = s.ref ∧
    t.platform = s.platform ∧ t.inbox = s.inbox ∧ t.replies = s.replies ∧ t.draws = s.draws ∧
    ((∀ r ∈ s.rivals, actRemaps r.act = none) → t.holes = s.holes)

/-- R16, column "written by": TXT only by RENDER.*, OUT only by ACC.PUT, CSUM and COPY.*, ACC and CNT only by ACC.INIT, ACC.UPD,
CSUM and COPY.*. -/
def Obligations.ResultRegistersWrittenOnlyByTheirCommands : Prop :=
  ∀ (i : Instr) (s t : State), exec i s = .next t →
    (i ∉ [Instr.renderOut, .renderRef, .renderAcc] → t.txt = s.txt ∧ t.written = s.written) ∧
    (i ∉ [Instr.accPut, .csum, .copyB, .copyW, .copyF] → t.out = s.out) ∧
    (i ∉ [Instr.accInit, .accUpd, .csum, .copyB, .copyW, .copyF] → t.acc = s.acc ∧ t.cnt = s.cnt)

/-- R44 (b), R52, R105, R141: a command changes no byte of memory outside the destination of a COPY.*; whatever other
agents do, only the bytes they write can differ as well. -/
def Obligations.MemoryOutsideDestinationUnchanged : Prop :=
  ∀ (i : Instr) (s t : State) (a : Nat), exec i s = .next t → (∀ r ∈ s.rivals, actWrites r.act ≠ some a) →
    (i ∉ [Instr.copyB, .copyW, .copyF] ∨ a < s.dst.toNat ∨ s.dst.toNat + s.len.toNat ≤ a) →
    Memory.byteAt t.mem a = Memory.byteAt s.mem a

/-- R31, R138: a command whose operand registers have been written does not depend on what any unwritten register holds, so
nothing it does rests on the values the model names for reset (log 1; the model's choice). -/
def Obligations.UnwrittenValuesDoNotMatter : Prop :=
  ∀ (i : Instr) (s s' : State), operandsWritten i s.written = true → forgetUnwritten s = forgetUnwritten s' →
    forgetInOutcome (exec i s) = forgetInOutcome (exec i s')

/-! ### The accumulator -/

/-- R68: the update rule written out, modulo 2^64. -/
def Obligations.UpdateRuleExpanded : Prop :=
  ∀ (s : Accum) (g : WordGroup), upd4 s g =
    { a1 := s.a1 + g.w0 + g.w1, b1 := s.b1 + 2 * s.a1 + 2 * g.w0 + g.w1,
      a2 := s.a2 + g.w2 + g.w3, b2 := s.b2 + 2 * s.a2 + 2 * g.w2 + g.w3 }

/-- R71: the fold of no words, of one group, and of a sequence in pieces of whole groups; together they are the loop of R71. -/
def Obligations.FoldInBufferOrder : Prop :=
  fold [] = Accum.ident ∧ (∀ ws : List Word, fold ws = foldFrom Accum.ident ws) ∧
  (∀ (s : Accum) (g : WordGroup), foldFrom s (groupWords g) = upd4 s g) ∧
  ∀ (s : Accum) (u v : List Word), u.length % 4 = 0 → v.length % 4 = 0 →
    foldFrom s (u ++ v) = foldFrom (foldFrom s u) v

/-- R72: the closed form, from any start and from IDENT. -/
def Obligations.FoldClosedForm : Prop :=
  ∀ (s : Accum) (ws : List Word), ws.length % 4 = 0 →
    foldFrom s ws =
      { a1 := s.a1 + plainSum (lane1 ws)
        b1 := s.b1 + BitVec.ofNat 64 (ws.length / 2) * s.a1 + weightedSum (lane1 ws)
        a2 := s.a2 + plainSum (lane2 ws)
        b2 := s.b2 + BitVec.ofNat 64 (ws.length / 2) * s.a2 + weightedSum (lane2 ws) } ∧
    fold ws =
      { a1 := 1 + plainSum (lane1 ws)
        b1 := BitVec.ofNat 64 (ws.length / 2) + weightedSum (lane1 ws)
        a2 := 1 + plainSum (lane2 ws)
        b2 := BitVec.ofNat 64 (ws.length / 2) + weightedSum (lane2 ws) }

/-- R73 (a): exchanging two words of a lane, `mid.length + 1` positions apart, keeps `a` and changes `b` by that many times
their difference; the other lane's words being the same, so are its scalars. -/
def Obligations.ExchangeInLaneChangesOnlyB : Prop :=
  ∀ (ws ws' pre mid post : List Word) (x y : Word), ws.length % 4 = 0 → ws'.length = ws.length →
    (lane1 ws = pre ++ x :: (mid ++ y :: post) → lane1 ws' = pre ++ y :: (mid ++ x :: post) → lane2 ws' = lane2 ws →
      (fold ws').a1 = (fold ws).a1 ∧ (fold ws').b1 = (fold ws).b1 + BitVec.ofNat 64 (mid.length + 1) * (y - x) ∧
      (fold ws').a2 = (fold ws).a2 ∧ (fold ws').b2 = (fold ws).b2) ∧
    (lane2 ws = pre ++ x :: (mid ++ y :: post) → lane2 ws' = pre ++ y :: (mid ++ x :: post) → lane1 ws' = lane1 ws →
      (fold ws').a2 = (fold ws).a2 ∧ (fold ws').b2 = (fold ws).b2 + BitVec.ofNat 64 (mid.length + 1) * (y - x) ∧
      (fold ws').a1 = (fold ws).a1 ∧ (fold ws').b1 = (fold ws).b1)

/-- R76: changing exactly the word at index `j` by `d` changes `a` of its lane by `d` and `b` by its weight times `d`, and the
other lane not at all; so for `d ≠ 0` the value differs. -/
def Obligations.SingleWordChangeIsSeen : Prop :=
  ∀ (pre post : List Word) (x d : Word), (pre.length + 1 + post.length) % 4 = 0 →
    let f := fold (pre ++ x :: post)
    let f' := fold (pre ++ (x + d) :: post)
    let weight := BitVec.ofNat 64
      ((pre.length + 1 + post.length) / 2 - 2 * (pre.length / 4) - pre.length % 2)
    (pre.length % 4 < 2 → f' = { f with a1 := f.a1 + d, b1 := f.b1 + weight * d }) ∧
    (2 ≤ pre.length % 4 → f' = { f with a2 := f.a2 + d, b2 := f.b2 + weight * d }) ∧
    (d ≠ 0 → f' ≠ f)

/-- R74: at every accepted length, words up to 536877056 (0x20001800) make no addition drop a carry: the scalars are the exact sums. -/
def Obligations.SmallWordsNeverWrap : Prop :=
  ∀ ws : List Word, ws.length % 4 = 0 → ws.length < 2 ^ 19 → (∀ w ∈ ws, w.toNat ≤ 536877056) →
    (fold ws).a1.toNat = 1 + exactSum (lane1 ws) ∧
    (fold ws).b1.toNat = ws.length / 2 + exactWeightedSum (lane1 ws) ∧
    (fold ws).a2.toNat = 1 + exactSum (lane2 ws) ∧
    (fold ws).b2.toNat = ws.length / 2 + exactWeightedSum (lane2 ws)

/-- R79: ACC.INIT. -/
def Obligations.AccInitMakesFresh : Prop :=
  ∀ s : State, exec .accInit s = .next { s with
    acc := { a1 := 1, b1 := 0, a2 := 1, b2 := 0 }
    cnt := 0
    status := { ok := true, err := none, eq := s.status.eq } }

/-- R80: ACC.UPD folds the group W0..W3, or fails when the stream would reach 2^19 words and then changes STATUS only. -/
def Obligations.AccUpdFoldsOrFails : Prop :=
  ∀ s : State,
    (s.cnt.toNat + 4 < 2 ^ 19 → exec .accUpd s = .next { s with
      acc := { a1 := s.acc.a1 + s.w.w0 + s.w.w1, b1 := s.acc.b1 + 2 * s.acc.a1 + 2 * s.w.w0 + s.w.w1,
               a2 := s.acc.a2 + s.w.w2 + s.w.w3, b2 := s.acc.b2 + 2 * s.acc.a2 + 2 * s.w.w2 + s.w.w3 }
      cnt := BitVec.ofNat 19 (s.cnt.toNat + 4)
      status := { ok := true, err := none, eq := s.status.eq } }) ∧
    (2 ^ 19 ≤ s.cnt.toNat + 4 → exec .accUpd s = .next { s with
      status := { ok := false, err := some .sizeTooLarge, eq := s.status.eq } })

/-- R81: ACC.PUT. -/
def Obligations.AccPutHandsBack : Prop :=
  ∀ s : State, exec .accPut s = .next { s with
    out := s.acc
    status := { ok := true, err := none, eq := s.status.eq } }

/-- R83: ACC.CMPEQ compares OUT and REF in all four scalars (R75); a mismatch is no failure. -/
def Obligations.AccCmpeqSetsEq : Prop :=
  ∀ s : State, exec .accCmpeq s = .next { s with
    status := { ok := true, err := none, eq := decide (s.out = s.ref) } }

/-- R86, R87, R88: each RENDER packs the text of its register set into TXT, and marks TXT written (R138). -/
def Obligations.RenderPacksText : Prop :=
  ∀ s : State,
    let done (a : Accum) : State := { s with
      txt := packText (render a)
      written := { s.written with txt := true }
      status := { ok := true, err := none, eq := s.status.eq } }
    exec .renderOut s = .next (done s.out) ∧ exec .renderRef s = .next (done s.ref) ∧
    exec .renderAcc s = .next (done s.acc)

/-- R29, R84, R85: character `k` of the text stands at bits `8(k mod 8)+7 : 8(k mod 8)` of TXT[k / 8], and is the digit of the
scalars in the order a1, a2, b1, b2, most significant first, lower case. -/
def Obligations.TextCharacterPositions : Prop :=
  ∀ (a : Accum) (r : Fin 8) (k : Fin 8),
    let v := if r.val < 2 then a.a1 else if r.val < 4 then a.a2 else if r.val < 6 then a.b1 else a.b2
    let digit := v.toNat / 16 ^ (15 - (8 * (r.val % 2) + k.val)) % 16
    ((textRegOf (packText (render a)) r).toNat / 2 ^ (8 * k.val)) % 256 =
      if digit ≤ 9 then 0x30 + digit else 0x57 + digit

/-- R85: two accumulator values give the same TXT if and only if they are equal. -/
def Obligations.RenderingIsInjective : Prop :=
  ∀ a b : Accum, packText (render a) = packText (render b) ↔ a = b

/-! ### Data memory -/

/-- R34: the value of the word at an address is the sum of its bytes, the lowest address least significant. -/
def Obligations.WordIsLittleEndian : Prop :=
  ∀ (m : List Host.Cell) (a : Nat), (Memory.wordAt m a).toNat =
    ((List.range 8).map fun k => (Memory.byteAt m (a + k)).toNat * 2 ^ (8 * k)).sum

/-- R37, R36: a write makes the word hold the value, keeps every other byte and the canonical form, and a read returns it. -/
def Obligations.WriteThenReadWord : Prop :=
  ∀ (m : List Host.Cell) (a : Nat) (v : Word),
    Memory.wordAt (Memory.writeWord m a v) a = v ∧
    (∀ k < 8, (Memory.byteAt (Memory.writeWord m a v) (a + k)).toNat = v.toNat / 2 ^ (8 * k) % 256) ∧
    (∀ b, b < a ∨ a + 8 ≤ b → Memory.byteAt (Memory.writeWord m a v) b = Memory.byteAt m b) ∧
    (Memory.wf m → Memory.wf (Memory.writeWord m a v))

/-! ### CSUM -/

/-- R89, R91, with the host keeping R48: CSUM completes, with the fold of the source words in ACC and OUT and N in CNT, and
nothing else changed, memory included, but what other agents did outside the buffer meanwhile (`othersDone`). -/
def Obligations.CsumFoldsSource : Prop :=
  ∀ s : State, s.len.toNat < 2 ^ 22 → s.len.toNat % 32 = 0 → s.src.toNat % 8 = 0 →
    s.src.toNat + s.len.toNat ≤ 2 ^ 64 → hostKeeps false s →
    exec .csum s = .next { othersDone s with
      acc := fold (Memory.wordsAt s.mem s.src.toNat (s.len.toNat / 8))
      out := fold (Memory.wordsAt s.mem s.src.toNat (s.len.toNat / 8))
      cnt := BitVec.ofNat 19 (s.len.toNat / 8)
      status := { ok := true, err := none, eq := s.status.eq }
      engine := none }

/-- R90, R92, R118: when CSUM fails, with which code, and that nothing else changes. -/
def Obligations.CsumFailsAtEntry : Prop :=
  ∀ s : State,
    (2 ^ 22 ≤ s.len.toNat → exec .csum s = .next { s with
      status := { ok := false, err := some .sizeTooLarge, eq := s.status.eq } }) ∧
    (s.len.toNat < 2 ^ 22 →
      s.len.toNat % 32 ≠ 0 ∨ s.src.toNat % 8 ≠ 0 ∨ 2 ^ 64 < s.src.toNat + s.len.toNat →
      exec .csum s = .next { s with
        status := { ok := false, err := some .precondition, eq := s.status.eq } })

/-- R94: a zero length, with an aligned SRC, succeeds with the identity state and makes no access, whatever memory admits
and other agents do meanwhile; with a misaligned SRC it fails. -/
def Obligations.CsumOfZeroLength : Prop :=
  ∀ s : State, s.len = 0 →
    (s.src.toNat % 8 = 0 → exec .csum s = .next { othersDone s with
      acc := Accum.ident, out := Accum.ident, cnt := 0
      status := { ok := true, err := none, eq := s.status.eq }, engine := none }) ∧
    (s.src.toNat % 8 ≠ 0 → exec .csum s = .next { s with
      status := { ok := false, err := some .precondition, eq := s.status.eq } })

/-- R95: the result of CSUM is a function of the words read alone: two runs over buffers that hold the same words, in any two
states and at any two addresses, give the same OUT, ACC and CNT. -/
def Obligations.CsumDependsOnlyOnWords : Prop :=
  ∀ s1 s2 : State, entryCheck false s1 = none → entryCheck false s2 = none → hostKeeps false s1 → hostKeeps false s2 →
    Memory.wordsAt s1.mem s1.src.toNat (wordCount s1.len) = Memory.wordsAt s2.mem s2.src.toNat (wordCount s2.len) →
    ∃ t1 t2, exec .csum s1 = .next t1 ∧ exec .csum s2 = .next t2 ∧ t1.out = t2.out ∧ t1.acc = t2.acc ∧ t1.cnt = t2.cnt

/-- R49 (c), R126: CSUM whose checks pass is stuck at the first word of its buffer whose read data memory does not admit when
the engine comes to it; its access number `j` is the read of word `j`. -/
def Obligations.CsumStuckAtFirstHole : Prop :=
  ∀ (s : State) (j : Nat), entryCheck false s = none → passCoversBlock false s = false → j < wordCount s.len →
    (∀ k < j, admits .read (holesAt s k) (s.src.toNat + 8 * k) = true) →
    admits .read (holesAt s j) (s.src.toNat + 8 * j) = false →
    exec .csum s = .fault (.stuckAccess .read (s.src.toNat + 8 * j))

/-! ### COPY.* -/

/-- R99, R100, R101, R102, with the host keeping R48: each COPY.* completes, having written the source words to the destination,
with their fold in ACC and OUT and N in CNT, and nothing else changed but what other agents did outside the buffers. -/
def Obligations.CopyWritesWordsAndFolds : Prop :=
  ∀ (i : Instr) (s : State), i ∈ [Instr.copyB, .copyW, .copyF] →
    s.len.toNat < 2 ^ 22 → s.len.toNat % 32 = 0 → s.src.toNat % 16 = 0 → s.dst.toNat % 16 = 0 →
    s.src.toNat + s.len.toNat ≤ 2 ^ 64 → s.dst.toNat + s.len.toNat ≤ 2 ^ 64 →
    (s.len = 0 ∨ s.src.toNat + s.len.toNat ≤ s.dst.toNat ∨ s.dst.toNat + s.len.toNat ≤ s.src.toNat) →
    hostKeeps true s →
    exec i s = .next { othersDone s with
      mem := Memory.writeWords (othersDone s).mem s.dst.toNat (Memory.wordsAt s.mem s.src.toNat (s.len.toNat / 8))
      acc := fold (Memory.wordsAt s.mem s.src.toNat (s.len.toNat / 8))
      out := fold (Memory.wordsAt s.mem s.src.toNat (s.len.toNat / 8))
      cnt := BitVec.ofNat 19 (s.len.toNat / 8)
      status := { ok := true, err := none, eq := s.status.eq }
      engine := none }

/-- R105: after a successful COPY.* the destination is a byte-for-byte copy of the source, the source is unchanged, and so is
every byte outside the destination that no other agent writes; OUT and ACC are the fold of the words and CNT is LEN / 8. -/
def Obligations.CopyIsExact : Prop :=
  ∀ (i : Instr) (s : State), i ∈ [Instr.copyB, .copyW, .copyF] → entryCheck true s = none → hostKeeps true s →
    ∃ t, exec i s = .next t ∧ t.status.ok = true ∧ t.cnt.toNat = s.len.toNat / 8 ∧ t.acc = t.out ∧
      t.out = fold (Memory.wordsAt s.mem s.src.toNat (s.len.toNat / 8)) ∧
      (∀ k < s.len.toNat, Memory.byteAt t.mem (s.dst.toNat + k) = Memory.byteAt s.mem (s.src.toNat + k)) ∧
      (∀ k < s.len.toNat, Memory.byteAt t.mem (s.src.toNat + k) = Memory.byteAt s.mem (s.src.toNat + k)) ∧
      ∀ a, a < s.dst.toNat ∨ s.dst.toNat + s.len.toNat ≤ a → (∀ r ∈ s.rivals, actWrites r.act ≠ some a) →
        Memory.byteAt t.mem a = Memory.byteAt s.mem a

/-- R98, R106, R118: when a COPY.* fails, with which code, and that nothing else changes. -/
def Obligations.CopyFailsAtEntry : Prop :=
  ∀ (i : Instr) (s : State), i ∈ [Instr.copyB, .copyW, .copyF] →
    (2 ^ 22 ≤ s.len.toNat → exec i s = .next { s with
      status := { ok := false, err := some .sizeTooLarge, eq := s.status.eq } }) ∧
    (s.len.toNat < 2 ^ 22 →
      s.len.toNat % 32 ≠ 0 ∨ s.src.toNat % 16 ≠ 0 ∨ s.dst.toNat % 16 ≠ 0 ∨
        2 ^ 64 < s.src.toNat + s.len.toNat ∨ 2 ^ 64 < s.dst.toNat + s.len.toNat ∨
        (0 < s.len.toNat ∧ s.src.toNat < s.dst.toNat + s.len.toNat ∧ s.dst.toNat < s.src.toNat + s.len.toNat) →
      exec i s = .next { s with
        status := { ok := false, err := some .precondition, eq := s.status.eq } })

/-- R103: the three strategies agree on every state, failures and stops included. -/
def Obligations.StrategiesAgree : Prop :=
  ∀ s : State, exec .copyW s = exec .copyB s ∧ exec .copyF s = exec .copyB s

/-- R7, R44, R46, R101, R102: P_CHUNK_WORDS, P_NT_STORE, P_HAS_VECTOR and P_HAS_WARM change no register and no byte of memory, for any
command whose host keeps R48. -/
def Obligations.ParametersAreNotArchitectural : Prop :=
  ∀ (i : Instr) (s : State) (cw : ChunkWords) (nt vec warm : Bool),
    (∀ copy ∈ passOf i, entryCheck copy s = none → hostKeeps copy s) →
    let set (t : State) : State :=
      { t with platform := { t.platform with chunkWords := cw, ntStore := nt, hasVector := vec, hasWarm := warm } }
    exec i (set s) = andThen (exec i s) fun t => .next (set t)

/-- R104: the OUT of a successful COPY.* is the OUT that CSUM gives over the same source before the copy and after it, and over
the destination after it, where the destination may be read. -/
def Obligations.CopyAgreesWithCsum : Prop :=
  ∀ (i : Instr) (s : State), i ∈ [Instr.copyB, .copyW, .copyF] → entryCheck true s = none → hostKeeps true s →
    ∃ t u w, exec i s = .next t ∧ exec .csum s = .next u ∧ exec .csum t = .next w ∧ u.out = t.out ∧ w.out = t.out ∧
      (bufferAdmitted .read t.holes s.dst.toNat (wordCount s.len) →
        ∃ v, exec .csum { t with src := t.dst } = .next v ∧ v.out = t.out)

/-- R44 (c), R49 (a), R107: whatever other agents write during a COPY.*, as long as they leave the destination alone, OUT is the
fold of the words the destination holds afterwards: each word was read once and that value went both ways. -/
def Obligations.RacedCopyMatchesItsChecksum : Prop :=
  ∀ (i : Instr) (s t : State), i ∈ [Instr.copyB, .copyW, .copyF] → entryCheck true s = none →
    (∀ r ∈ s.rivals, ∀ a ∈ actWrites r.act, a < s.dst.toNat ∨ s.dst.toNat + s.len.toNat ≤ a) →
    exec i s = .next t →
    t.out = fold (Memory.wordsAt t.mem s.dst.toNat (wordCount s.len)) ∧ t.acc = t.out

/-- R47, R49 (b): another agent that reads a word during a COPY.* (eight bytes at one moment), in the destination or anywhere
else, sees the old word or the new one, whatever else is armed before and after, as long as no agent writes the word. -/
def Obligations.RacingReadSeesOldOrNewWord : Prop :=
  ∀ (i : Instr) (s t : State) (moment : Nat) (addr : Word) (earlier later : List Rival),
    i ∈ [Instr.copyB, .copyW, .copyF] → entryCheck true s = none → addr.toNat % 8 = 0 →
    s.rivals = earlier ++ (readOfWord moment addr ++ later) →
    (∀ r ∈ s.rivals, ∀ k < 8, actWrites r.act ≠ some (addr.toNat + k)) → exec i s = .next t →
    ∃ m ∈ [s.mem, t.mem], ∃ xs ys,
      t.observed = s.observed ++ (xs ++ ((List.range 8).map (fun k => Memory.byteAt m (addr.toNat + k)) ++ ys)) ∧
      xs.length = (earlier.filterMap fun r => actReads r.act).length

/-- R30 (c), R45: before completion the destination writes can become visible in any order: of any two words of the
destination, an agent can see the one new while the other is still old; at completion all are new. That the order is given by
armed acts is the model's convention (logs 7, 8). -/
def Obligations.WritesBecomeVisibleInAnyOrder : Prop :=
  ∀ (i : Instr) (s : State) (j k : Nat), i ∈ [Instr.copyB, .copyW, .copyF] → entryCheck true s = none →
    buffersValid true s → j < wordCount s.len → k < wordCount s.len → j ≠ k →
    s.rivals = { after := 2 * wordCount s.len, act := .perform (s.dst + BitVec.ofNat 64 (8 * j)) } ::
      (readOfWord (2 * wordCount s.len) (s.dst + BitVec.ofNat 64 (8 * j)) ++
        readOfWord (2 * wordCount s.len) (s.dst + BitVec.ofNat 64 (8 * k))) →
    ∃ t, exec i s = .next t ∧ t.status.ok = true ∧
      t.observed = s.observed ++ ((List.range 8).map (fun b => Memory.byteAt s.mem (s.src.toNat + 8 * j + b)) ++
        (List.range 8).map (fun b => Memory.byteAt s.mem (s.dst.toNat + 8 * k + b))) ∧
      Memory.wordsAt t.mem s.dst.toNat (wordCount s.len) = Memory.wordsAt s.mem s.src.toNat (wordCount s.len)

/-- R49 (c), R126: a COPY.* whose checks pass is stuck if data memory does not admit the read of some source word or the write
of some destination word (protection of either kind), and nothing is remapped meanwhile; it then reports no code. -/
def Obligations.CopyStuckAtHole : Prop :=
  ∀ (i : Instr) (s : State), i ∈ [Instr.copyB, .copyW, .copyF] → entryCheck true s = none →
    passCoversBlock true s = false → (∀ r ∈ s.rivals, actRemaps r.act = none) → ¬ buffersAdmitted true s s.holes →
    ∃ kind a, exec i s = .fault (.stuckAccess kind a) ∧ admits kind s.holes a = false

/-- R44, R49 (c), R126, R135, R140: a CSUM or COPY.* whose checks pass is stuck exactly at the first of its accesses that data
memory does not admit when the access is made, whatever is mapped, unmapped or protected meanwhile; else it completes. -/
def Obligations.PassStopsAtFirstRefusedAccess : Prop :=
  ∀ (i : Instr) (s : State) (copy : Bool), passOf i = some copy → entryCheck copy s = none →
    passCoversBlock copy s = false →
    (∀ kind a, firstRefused s 0 (passAccesses copy s) = some (kind, a) → exec i s = .fault (.stuckAccess kind a)) ∧
    (firstRefused s 0 (passAccesses copy s) = none → ∃ t, exec i s = .next t ∧ t.status.ok = true)

/-- R42, U8: where the register block is visible in the data space, CSUM and COPY.* over a buffer that covers a byte of it are
refused by name, once their checks pass. -/
def Obligations.BufferOverBlockRefused : Prop :=
  ∀ (i : Instr) (s : State) (copy : Bool), passOf i = some copy → entryCheck copy s = none →
    s.platform.blockInDataSpace = true → 0 < s.len.toNat →
    ((s.src.toNat < s.platform.base.toNat + 256 ∧ s.platform.base.toNat < s.src.toNat + s.len.toNat) ∨
     (copy = true ∧ s.dst.toNat < s.platform.base.toNat + 256 ∧ s.platform.base.toNat < s.dst.toNat + s.len.toNat)) →
    exec i s = .refused .bufferOverRegisterBlock

/-! ### Programs -/

/-- R82: a manual stream of fewer than 2^19 words ends in success with the fold of the words in OUT and their count in CNT, the
values a CSUM over a buffer holding them leaves. -/
def Obligations.ManualStreamEqualsFold : Prop :=
  ∀ (s : State) (gs : List WordGroup), 4 * gs.length < 2 ^ 19 →
    ∃ t, runEvents (pseudoStream gs) s = .next t ∧ t.status.ok = true ∧
      t.out = fold (gs.flatMap groupWords) ∧ t.cnt.toNat = 4 * gs.length ∧ t.mem = s.mem

/-- R65 CHECKSUM, R91: where the host keeps R48, the pseudo-instruction returns STATUS with OK = 1 and then the four scalars of the
fold of the source words. -/
def Obligations.ChecksumProgramReturnsFold : Prop :=
  ∀ (s : State) (src len : Word), entryCheck false { s with src := src, len := len } = none →
    hostKeeps false { s with src := src, len := len } →
    let f := fold (Memory.wordsAt s.mem src.toNat (wordCount len))
    ∃ t, pseudoChecksum src len s = .next t ∧
      t.replies = s.replies ++ [statusWord { ok := true, err := none, eq := s.status.eq }, f.a1, f.a2, f.b1, f.b2]

/-- R65 SAVEREF, R83: after a result is kept as the reference, ACC.CMPEQ reports equality. -/
def Obligations.SavedReferenceComparesEqual : Prop :=
  ∀ s : State, ∃ t u, pseudoSaveRef s = .next t ∧ t.ref = s.out ∧ t.out = s.out ∧
    exec .accCmpeq t = .next u ∧ u.status = { ok := true, err := none, eq := true }
end

