-- ==== Sys2Proof/Laws/Memory.lean ====
section
/-! SUPPORT. Bytes and words, and the laws of data memory: read after write, writes that miss, and the canonical form. -/

namespace Sys2Proof.Machine

/-! ### Words as bytes (R34) -/

theorem toNat_append_eq {n m : Nat} (x : BitVec n) (y : BitVec m) :
    (x ++ y).toNat = x.toNat * 2 ^ m + y.toNat := by
  rw [BitVec.toNat_append, ← Nat.shiftLeft_add_eq_or_of_lt y.isLt, Nat.shiftLeft_eq]

/-- The value of a word from its bytes: the sum of R34. -/
theorem wordOfBytes_toNat (f : Nat → Byte) :
    (wordOfBytes f).toNat = (f 0).toNat + (f 1).toNat * 2 ^ 8 + (f 2).toNat * 2 ^ 16 + (f 3).toNat * 2 ^ 24 +
      (f 4).toNat * 2 ^ 32 + (f 5).toNat * 2 ^ 40 + (f 6).toNat * 2 ^ 48 + (f 7).toNat * 2 ^ 56 := by
  simp only [wordOfBytes, toNat_append_eq]
  omega

theorem byteOf_toNat (v : Word) (k : Nat) : (byteOf v k).toNat = v.toNat / 2 ^ (8 * k) % 256 := by
  simp [byteOf, BitVec.extractLsb'_toNat, Nat.shiftRight_eq_div_pow]

theorem wordOfBytes_byteOf (v : Word) : wordOfBytes (byteOf v) = v := by
  apply BitVec.eq_of_toNat_eq
  have := v.isLt
  simp only [wordOfBytes_toNat, byteOf_toNat]
  omega

theorem byteOf_wordOfBytes (f : Nat → Byte) (k : Nat) (hk : k < 8) : byteOf (wordOfBytes f) k = f k := by
  apply BitVec.eq_of_toNat_eq
  rw [byteOf_toNat, wordOfBytes_toNat]
  have h0 := (f 0).isLt; have h1 := (f 1).isLt; have h2 := (f 2).isLt; have h3 := (f 3).isLt
  have h4 := (f 4).isLt; have h5 := (f 5).isLt; have h6 := (f 6).isLt; have h7 := (f 7).isLt
  have : k = 0 ∨ k = 1 ∨ k = 2 ∨ k = 3 ∨ k = 4 ∨ k = 5 ∨ k = 6 ∨ k = 7 := by omega
  rcases this with rfl | rfl | rfl | rfl | rfl | rfl | rfl | rfl <;> omega

theorem wordOfBytes_congr {f g : Nat → Byte} (h : ∀ k < 8, f k = g k) : wordOfBytes f = wordOfBytes g := by
  simp [wordOfBytes, h]

/-! ### Bytes of memory (R36, R37) -/

theorem Memory.read?_write_same (m : List Host.Cell) (a : Nat) (b : Byte) :
    Memory.read? (Memory.write m a b) a = some b := by
  induction m with
  | nil => simp [Memory.write, Memory.read?]
  | cons c m ih =>
    simp only [Memory.write]
    split
    · simp [Memory.read?]
    · split
      · simp [Memory.read?]
      · have : c.1 ≠ a := by omega
        simp [Memory.read?, this, ih]

theorem Memory.read?_write_other (m : List Host.Cell) {a a' : Nat} (b : Byte) (h : a' ≠ a) :
    Memory.read? (Memory.write m a b) a' = Memory.read? m a' := by
  induction m with
  | nil => simp [Memory.write, Memory.read?, h.symm]
  | cons c m ih =>
    simp only [Memory.write]
    split
    · simp [Memory.read?, h.symm]
    · split
      · rename_i h2
        have : c.1 ≠ a' := by omega
        simp [Memory.read?, h.symm, this]
      · simp [Memory.read?, ih]

@[simp] theorem Memory.byteAt_write_same (m : List Host.Cell) (a : Nat) (b : Byte) :
    Memory.byteAt (Memory.write m a b) a = b := by
  simp [Memory.byteAt, Memory.read?_write_same]

theorem Memory.byteAt_write_other (m : List Host.Cell) {a a' : Nat} (b : Byte) (h : a' ≠ a) :
    Memory.byteAt (Memory.write m a b) a' = Memory.byteAt m a' := by
  simp [Memory.byteAt, Memory.read?_write_other m b h]

theorem Memory.mem_write {m : List Host.Cell} {a : Nat} {b : Byte} {c : Host.Cell}
    (h : c ∈ Memory.write m a b) : c = (a, b) ∨ c ∈ m := by
  induction m with
  | nil => simpa [Memory.write] using h
  | cons d m ih =>
    simp only [Memory.write] at h
    split at h
    · simpa using h
    · split at h
      · rcases List.mem_cons.1 h with h | h
        · exact .inl h
        · exact .inr (List.mem_cons_of_mem _ h)
      · rcases List.mem_cons.1 h with h | h
        · exact .inr (by simp [h])
        · exact (ih h).imp id (List.mem_cons_of_mem _)

/-- A write keeps the canonical form. -/
theorem Memory.wf_write {m : List Host.Cell} (a : Nat) (b : Byte) (h : Memory.wf m) :
    Memory.wf (Memory.write m a b) := by
  induction m with
  | nil => simp [Memory.write, Memory.wf]
  | cons c m ih =>
    obtain ⟨hc, hm⟩ := List.pairwise_cons.1 h
    simp only [Memory.write]
    split
    · rename_i hlt
      refine List.pairwise_cons.2 ⟨fun d hd => ?_, h⟩
      rcases List.mem_cons.1 hd with rfl | hd
      · exact hlt
      · have := hc d hd
        show a < d.1
        omega
    · split
      · rename_i heq
        exact List.pairwise_cons.2 ⟨fun d hd => by have := hc d hd; show a < d.1; omega, hm⟩
      · refine List.pairwise_cons.2 ⟨fun d hd => ?_, ih hm⟩
        rcases Memory.mem_write hd with rfl | hd
        · show c.1 < a
          omega
        · exact hc d hd

/-! ### Words of memory -/

theorem Memory.writeWord_eq (m : List Host.Cell) (a : Nat) (v : Word) :
    Memory.writeWord m a v =
      Memory.write (Memory.write (Memory.write (Memory.write (Memory.write (Memory.write (Memory.write
        (Memory.write m (a + 0) (byteOf v 0)) (a + 1) (byteOf v 1)) (a + 2) (byteOf v 2)) (a + 3) (byteOf v 3))
        (a + 4) (byteOf v 4)) (a + 5) (byteOf v 5)) (a + 6) (byteOf v 6)) (a + 7) (byteOf v 7) := rfl

theorem Memory.wf_writeWord {m : List Host.Cell} (a : Nat) (v : Word) (h : Memory.wf m) :
    Memory.wf (Memory.writeWord m a v) := by
  rw [Memory.writeWord_eq]
  iterate 8 apply Memory.wf_write
  exact h

theorem Memory.byteAt_writeWord_other (m : List Host.Cell) {a a' : Nat} (v : Word) (h : a' < a ∨ a + 8 ≤ a') :
    Memory.byteAt (Memory.writeWord m a v) a' = Memory.byteAt m a' := by
  rw [Memory.writeWord_eq]
  iterate 8 rw [Memory.byteAt_write_other _ _ (by omega)]

theorem Memory.byteAt_writeWord_same (m : List Host.Cell) (a : Nat) (v : Word) {k : Nat} (hk : k < 8) :
    Memory.byteAt (Memory.writeWord m a v) (a + k) = byteOf v k := by
  rw [Memory.writeWord_eq]
  have : k = 0 ∨ k = 1 ∨ k = 2 ∨ k = 3 ∨ k = 4 ∨ k = 5 ∨ k = 6 ∨ k = 7 := by omega
  rcases this with rfl | rfl | rfl | rfl | rfl | rfl | rfl | rfl <;>
  · repeat rw [Memory.byteAt_write_other _ _ (by omega)]
    rw [Memory.byteAt_write_same]

/-- Writes to two addresses may be made in either order. -/
theorem Memory.write_comm (m : List Host.Cell) {a b : Nat} (h : a ≠ b) (x y : Byte) :
    Memory.write (Memory.write m a x) b y = Memory.write (Memory.write m b y) a x := by
  induction m with
  | nil =>
    simp only [Memory.write]
    split_ifs <;> first | rfl | omega
  | cons c m ih =>
    simp only [Memory.write]
    split_ifs <;> simp only [Memory.write] <;> split_ifs <;> first | rfl | omega | simp [ih]

/-- So may a byte and a word that does not hold it. -/
theorem Memory.writeWord_write_comm (m : List Host.Cell) {a b : Nat} (h : ∀ k < 8, a + k ≠ b) (v : Word) (y : Byte) :
    Memory.writeWord (Memory.write m b y) a v = Memory.write (Memory.writeWord m a v) b y := by
  have h0 := h 0 (by omega)
  simp only [Memory.writeWord_eq]
  rw [Memory.write_comm _ (h 7 (by omega)), Memory.write_comm _ (h 6 (by omega)), Memory.write_comm _ (h 5 (by omega)),
    Memory.write_comm _ (h 4 (by omega)), Memory.write_comm _ (h 3 (by omega)), Memory.write_comm _ (h 2 (by omega)),
    Memory.write_comm _ (h 1 (by omega)), Memory.write_comm _ h0]

/-- Two words that share no byte may be written in either order. -/
theorem Memory.writeWord_comm (m : List Host.Cell) {a b : Nat} (h : a + 8 ≤ b ∨ b + 8 ≤ a) (v y : Word) :
    Memory.writeWord (Memory.writeWord m b y) a v = Memory.writeWord (Memory.writeWord m a v) b y := by
  rw [Memory.writeWord_eq m b, Memory.writeWord_eq (Memory.writeWord m a v) b]
  iterate 8 rw [Memory.writeWord_write_comm _ (by omega)]

theorem Memory.wordAt_congr {m m' : List Host.Cell} {a : Nat}
    (h : ∀ k < 8, Memory.byteAt m (a + k) = Memory.byteAt m' (a + k)) : Memory.wordAt m a = Memory.wordAt m' a :=
  wordOfBytes_congr h

theorem Memory.wordAt_writeWord_same (m : List Host.Cell) (a : Nat) (v : Word) :
    Memory.wordAt (Memory.writeWord m a v) a = v := by
  rw [Memory.wordAt, ← wordOfBytes_byteOf v]
  exact wordOfBytes_congr fun k hk => by rw [wordOfBytes_byteOf]; exact Memory.byteAt_writeWord_same m a v hk

theorem Memory.wordAt_writeWord_other (m : List Host.Cell) {a a' : Nat} (v : Word) (h : a' + 8 ≤ a ∨ a + 8 ≤ a') :
    Memory.wordAt (Memory.writeWord m a v) a' = Memory.wordAt m a' :=
  Memory.wordAt_congr fun k hk => Memory.byteAt_writeWord_other m v (by omega)

theorem Memory.byteAt_eq_byteOf_wordAt (m : List Host.Cell) (a : Nat) {k : Nat} (hk : k < 8) :
    Memory.byteAt m (a + k) = byteOf (Memory.wordAt m a) k :=
  (byteOf_wordOfBytes (fun k => Memory.byteAt m (a + k)) k hk).symm

/-! ### Runs of words -/

@[simp] theorem Memory.length_wordsAt (m : List Host.Cell) (a n : Nat) : (Memory.wordsAt m a n).length = n := by
  simp [Memory.wordsAt]

@[simp] theorem Memory.wordsAt_zero (m : List Host.Cell) (a : Nat) : Memory.wordsAt m a 0 = [] := rfl

theorem Memory.wordsAt_succ (m : List Host.Cell) (a n : Nat) :
    Memory.wordsAt m a (n + 1) = Memory.wordAt m a :: Memory.wordsAt m (a + 8) n := by
  simp only [Memory.wordsAt, List.range_succ_eq_map, List.map_cons, List.map_map, Nat.mul_zero, Nat.add_zero,
    List.cons.injEq, true_and]
  refine List.map_congr_left fun i _ => ?_
  simp only [Function.comp, Nat.succ_eq_add_one]
  congr 1
  omega

theorem Memory.wordsAt_add (m : List Host.Cell) (a n k : Nat) :
    Memory.wordsAt m a (n + k) = Memory.wordsAt m a n ++ Memory.wordsAt m (a + 8 * n) k := by
  induction n generalizing a with
  | zero => simp
  | succ n ih =>
    rw [Nat.succ_add_eq_add_succ, Nat.add_succ, Memory.wordsAt_succ, Memory.wordsAt_succ, ih (a + 8)]
    have : a + 8 + 8 * n = a + 8 * (n + 1) := by omega
    simp [this]

theorem Memory.wordsAt_congr {m m' : List Host.Cell} {a n : Nat}
    (h : ∀ k, a ≤ k → k < a + 8 * n → Memory.byteAt m k = Memory.byteAt m' k) :
    Memory.wordsAt m a n = Memory.wordsAt m' a n :=
  List.map_congr_left fun i hi =>
    Memory.wordAt_congr fun k hk => h _ (by omega) (by have := List.mem_range.1 hi; omega)

theorem Memory.writeWords_append (m : List Host.Cell) (a : Nat) (us vs : List Word) :
    Memory.writeWords m a (us ++ vs) = Memory.writeWords (Memory.writeWords m a us) (a + 8 * us.length) vs := by
  induction us generalizing m a with
  | nil => simp [Memory.writeWords]
  | cons u us ih =>
    have : a + 8 + 8 * us.length = a + 8 * (us.length + 1) := by omega
    simp [Memory.writeWords, ih, this]

theorem Memory.wf_writeWords {m : List Host.Cell} (a : Nat) (vs : List Word) (h : Memory.wf m) :
    Memory.wf (Memory.writeWords m a vs) := by
  induction vs generalizing m a with
  | nil => exact h
  | cons v vs ih => exact ih (a + 8) (Memory.wf_writeWord a v h)

theorem Memory.byteAt_writeWords_other (m : List Host.Cell) {a a' : Nat} (vs : List Word)
    (h : a' < a ∨ a + 8 * vs.length ≤ a') :
    Memory.byteAt (Memory.writeWords m a vs) a' = Memory.byteAt m a' := by
  induction vs generalizing m a with
  | nil => rfl
  | cons v vs ih =>
    simp only [List.length_cons] at h
    rw [Memory.writeWords, ih _ (by omega), Memory.byteAt_writeWord_other m v (by omega)]

theorem Memory.wordsAt_writeWords_same (m : List Host.Cell) (a : Nat) (vs : List Word) :
    Memory.wordsAt (Memory.writeWords m a vs) a vs.length = vs := by
  induction vs generalizing m a with
  | nil => rfl
  | cons v vs ih =>
    have h : Memory.wordAt (Memory.writeWords (Memory.writeWord m a v) (a + 8) vs) a = v := by
      refine Eq.trans (Memory.wordAt_congr fun k hk => ?_) (Memory.wordAt_writeWord_same m a v)
      exact Memory.byteAt_writeWords_other _ vs (by omega)
    rw [List.length_cons, Memory.wordsAt_succ, Memory.writeWords, h, ih]

theorem Memory.wordsAt_writeWords_other (m : List Host.Cell) {a a' n : Nat} (vs : List Word)
    (h : a' + 8 * n ≤ a ∨ a + 8 * vs.length ≤ a') :
    Memory.wordsAt (Memory.writeWords m a vs) a' n = Memory.wordsAt m a' n :=
  Memory.wordsAt_congr fun k h1 h2 => Memory.byteAt_writeWords_other m vs (by omega)

end Sys2Proof.Machine
end

