-- ==== Sys2Proof/Laws/State.lean ====
section
/-! SUPPORT. What each shared update of State does to each field, one lemma a field, true by rfl; and what the engine holds after
it is set. -/

namespace Sys2Proof.Machine

/-! ### raiseFail -/

@[simp] theorem raiseFail_status (c : FailCode) (s : State) : (raiseFail c s).status = failStatus c s.status := rfl
@[simp] theorem raiseFail_src (c : FailCode) (s : State) : (raiseFail c s).src = s.src := rfl
@[simp] theorem raiseFail_dst (c : FailCode) (s : State) : (raiseFail c s).dst = s.dst := rfl
@[simp] theorem raiseFail_len (c : FailCode) (s : State) : (raiseFail c s).len = s.len := rfl
@[simp] theorem raiseFail_cnt (c : FailCode) (s : State) : (raiseFail c s).cnt = s.cnt := rfl
@[simp] theorem raiseFail_w (c : FailCode) (s : State) : (raiseFail c s).w = s.w := rfl
@[simp] theorem raiseFail_acc (c : FailCode) (s : State) : (raiseFail c s).acc = s.acc := rfl
@[simp] theorem raiseFail_out (c : FailCode) (s : State) : (raiseFail c s).out = s.out := rfl
@[simp] theorem raiseFail_ref (c : FailCode) (s : State) : (raiseFail c s).ref = s.ref := rfl
@[simp] theorem raiseFail_txt (c : FailCode) (s : State) : (raiseFail c s).txt = s.txt := rfl
@[simp] theorem raiseFail_engine (c : FailCode) (s : State) : (raiseFail c s).engine = s.engine := rfl
@[simp] theorem raiseFail_mem (c : FailCode) (s : State) : (raiseFail c s).mem = s.mem := rfl
@[simp] theorem raiseFail_holes (c : FailCode) (s : State) : (raiseFail c s).holes = s.holes := rfl
@[simp] theorem raiseFail_written (c : FailCode) (s : State) : (raiseFail c s).written = s.written := rfl
@[simp] theorem raiseFail_platform (c : FailCode) (s : State) : (raiseFail c s).platform = s.platform := rfl
@[simp] theorem raiseFail_inbox (c : FailCode) (s : State) : (raiseFail c s).inbox = s.inbox := rfl
@[simp] theorem raiseFail_replies (c : FailCode) (s : State) : (raiseFail c s).replies = s.replies := rfl
@[simp] theorem raiseFail_rivals (c : FailCode) (s : State) : (raiseFail c s).rivals = s.rivals := rfl
@[simp] theorem raiseFail_observed (c : FailCode) (s : State) : (raiseFail c s).observed = s.observed := rfl
@[simp] theorem raiseFail_draws (c : FailCode) (s : State) : (raiseFail c s).draws = s.draws := rfl

/-! ### succeed -/

@[simp] theorem succeed_status (s : State) : (succeed s).status = okStatus s.status := rfl
@[simp] theorem succeed_src (s : State) : (succeed s).src = s.src := rfl
@[simp] theorem succeed_dst (s : State) : (succeed s).dst = s.dst := rfl
@[simp] theorem succeed_len (s : State) : (succeed s).len = s.len := rfl
@[simp] theorem succeed_cnt (s : State) : (succeed s).cnt = s.cnt := rfl
@[simp] theorem succeed_w (s : State) : (succeed s).w = s.w := rfl
@[simp] theorem succeed_acc (s : State) : (succeed s).acc = s.acc := rfl
@[simp] theorem succeed_out (s : State) : (succeed s).out = s.out := rfl
@[simp] theorem succeed_ref (s : State) : (succeed s).ref = s.ref := rfl
@[simp] theorem succeed_txt (s : State) : (succeed s).txt = s.txt := rfl
@[simp] theorem succeed_engine (s : State) : (succeed s).engine = s.engine := rfl
@[simp] theorem succeed_mem (s : State) : (succeed s).mem = s.mem := rfl
@[simp] theorem succeed_holes (s : State) : (succeed s).holes = s.holes := rfl
@[simp] theorem succeed_written (s : State) : (succeed s).written = s.written := rfl
@[simp] theorem succeed_platform (s : State) : (succeed s).platform = s.platform := rfl
@[simp] theorem succeed_inbox (s : State) : (succeed s).inbox = s.inbox := rfl
@[simp] theorem succeed_replies (s : State) : (succeed s).replies = s.replies := rfl
@[simp] theorem succeed_rivals (s : State) : (succeed s).rivals = s.rivals := rfl
@[simp] theorem succeed_observed (s : State) : (succeed s).observed = s.observed := rfl
@[simp] theorem succeed_draws (s : State) : (succeed s).draws = s.draws := rfl

/-! ### setEngine -/

@[simp] theorem setEngine_status (s : State) (e : Engine) : (setEngine s e).status = s.status := rfl
@[simp] theorem setEngine_src (s : State) (e : Engine) : (setEngine s e).src = s.src := rfl
@[simp] theorem setEngine_dst (s : State) (e : Engine) : (setEngine s e).dst = s.dst := rfl
@[simp] theorem setEngine_len (s : State) (e : Engine) : (setEngine s e).len = s.len := rfl
@[simp] theorem setEngine_cnt (s : State) (e : Engine) : (setEngine s e).cnt = s.cnt := rfl
@[simp] theorem setEngine_w (s : State) (e : Engine) : (setEngine s e).w = s.w := rfl
@[simp] theorem setEngine_acc (s : State) (e : Engine) : (setEngine s e).acc = s.acc := rfl
@[simp] theorem setEngine_out (s : State) (e : Engine) : (setEngine s e).out = s.out := rfl
@[simp] theorem setEngine_ref (s : State) (e : Engine) : (setEngine s e).ref = s.ref := rfl
@[simp] theorem setEngine_txt (s : State) (e : Engine) : (setEngine s e).txt = s.txt := rfl
@[simp] theorem setEngine_engine (s : State) (e : Engine) : (setEngine s e).engine = some e := rfl
@[simp] theorem setEngine_mem (s : State) (e : Engine) : (setEngine s e).mem = s.mem := rfl
@[simp] theorem setEngine_holes (s : State) (e : Engine) : (setEngine s e).holes = s.holes := rfl
@[simp] theorem setEngine_written (s : State) (e : Engine) : (setEngine s e).written = s.written := rfl
@[simp] theorem setEngine_platform (s : State) (e : Engine) : (setEngine s e).platform = s.platform := rfl
@[simp] theorem setEngine_inbox (s : State) (e : Engine) : (setEngine s e).inbox = s.inbox := rfl
@[simp] theorem setEngine_replies (s : State) (e : Engine) : (setEngine s e).replies = s.replies := rfl
@[simp] theorem setEngine_rivals (s : State) (e : Engine) : (setEngine s e).rivals = s.rivals := rfl
@[simp] theorem setEngine_observed (s : State) (e : Engine) : (setEngine s e).observed = s.observed := rfl
@[simp] theorem setEngine_draws (s : State) (e : Engine) : (setEngine s e).draws = s.draws := rfl

/-! ### renderInto -/

@[simp] theorem renderInto_status (a : Accum) (s : State) : (renderInto a s).status = okStatus s.status := rfl
@[simp] theorem renderInto_src (a : Accum) (s : State) : (renderInto a s).src = s.src := rfl
@[simp] theorem renderInto_dst (a : Accum) (s : State) : (renderInto a s).dst = s.dst := rfl
@[simp] theorem renderInto_len (a : Accum) (s : State) : (renderInto a s).len = s.len := rfl
@[simp] theorem renderInto_cnt (a : Accum) (s : State) : (renderInto a s).cnt = s.cnt := rfl
@[simp] theorem renderInto_w (a : Accum) (s : State) : (renderInto a s).w = s.w := rfl
@[simp] theorem renderInto_acc (a : Accum) (s : State) : (renderInto a s).acc = s.acc := rfl
@[simp] theorem renderInto_out (a : Accum) (s : State) : (renderInto a s).out = s.out := rfl
@[simp] theorem renderInto_ref (a : Accum) (s : State) : (renderInto a s).ref = s.ref := rfl
@[simp] theorem renderInto_txt (a : Accum) (s : State) : (renderInto a s).txt = packText (render a) := rfl
@[simp] theorem renderInto_engine (a : Accum) (s : State) : (renderInto a s).engine = s.engine := rfl
@[simp] theorem renderInto_mem (a : Accum) (s : State) : (renderInto a s).mem = s.mem := rfl
@[simp] theorem renderInto_holes (a : Accum) (s : State) : (renderInto a s).holes = s.holes := rfl
@[simp] theorem renderInto_written (a : Accum) (s : State) : (renderInto a s).written = { s.written with txt := true } := rfl
@[simp] theorem renderInto_platform (a : Accum) (s : State) : (renderInto a s).platform = s.platform := rfl
@[simp] theorem renderInto_inbox (a : Accum) (s : State) : (renderInto a s).inbox = s.inbox := rfl
@[simp] theorem renderInto_replies (a : Accum) (s : State) : (renderInto a s).replies = s.replies := rfl
@[simp] theorem renderInto_rivals (a : Accum) (s : State) : (renderInto a s).rivals = s.rivals := rfl
@[simp] theorem renderInto_observed (a : Accum) (s : State) : (renderInto a s).observed = s.observed := rfl
@[simp] theorem renderInto_draws (a : Accum) (s : State) : (renderInto a s).draws = s.draws := rfl

/-! ### settle -/

@[simp] theorem settle_status (s : State) : (settle s).status = s.status := rfl
@[simp] theorem settle_src (s : State) : (settle s).src = s.src := rfl
@[simp] theorem settle_dst (s : State) : (settle s).dst = s.dst := rfl
@[simp] theorem settle_len (s : State) : (settle s).len = s.len := rfl
@[simp] theorem settle_cnt (s : State) : (settle s).cnt = s.cnt := rfl
@[simp] theorem settle_w (s : State) : (settle s).w = s.w := rfl
@[simp] theorem settle_acc (s : State) : (settle s).acc = s.acc := rfl
@[simp] theorem settle_out (s : State) : (settle s).out = s.out := rfl
@[simp] theorem settle_ref (s : State) : (settle s).ref = s.ref := rfl
@[simp] theorem settle_txt (s : State) : (settle s).txt = s.txt := rfl
@[simp] theorem settle_engine (s : State) : (settle s).engine = withPending s.engine (pendingAfter (engineOf s).pending (dueBy (engineOf s).tick s.rivals)) := rfl
@[simp] theorem settle_mem (s : State) : (settle s).mem = memAfter s.mem (engineOf s).pending (dueBy (engineOf s).tick s.rivals) := rfl
@[simp] theorem settle_holes (s : State) : (settle s).holes = holesAt s (engineOf s).tick := rfl
@[simp] theorem settle_written (s : State) : (settle s).written = s.written := rfl
@[simp] theorem settle_platform (s : State) : (settle s).platform = s.platform := rfl
@[simp] theorem settle_inbox (s : State) : (settle s).inbox = s.inbox := rfl
@[simp] theorem settle_replies (s : State) : (settle s).replies = s.replies := rfl
@[simp] theorem settle_rivals (s : State) : (settle s).rivals = notDueBy (engineOf s).tick s.rivals := rfl
@[simp] theorem settle_observed (s : State) : (settle s).observed = s.observed ++ seenBy s.mem (engineOf s).pending (dueBy (engineOf s).tick s.rivals) := rfl
@[simp] theorem settle_draws (s : State) : (settle s).draws = s.draws := rfl

/-! ### settleAll -/

@[simp] theorem settleAll_status (s : State) : (settleAll s).status = s.status := rfl
@[simp] theorem settleAll_src (s : State) : (settleAll s).src = s.src := rfl
@[simp] theorem settleAll_dst (s : State) : (settleAll s).dst = s.dst := rfl
@[simp] theorem settleAll_len (s : State) : (settleAll s).len = s.len := rfl
@[simp] theorem settleAll_cnt (s : State) : (settleAll s).cnt = s.cnt := rfl
@[simp] theorem settleAll_w (s : State) : (settleAll s).w = s.w := rfl
@[simp] theorem settleAll_acc (s : State) : (settleAll s).acc = s.acc := rfl
@[simp] theorem settleAll_out (s : State) : (settleAll s).out = s.out := rfl
@[simp] theorem settleAll_ref (s : State) : (settleAll s).ref = s.ref := rfl
@[simp] theorem settleAll_txt (s : State) : (settleAll s).txt = s.txt := rfl
@[simp] theorem settleAll_engine (s : State) : (settleAll s).engine = withPending s.engine (pendingAfter (engineOf s).pending s.rivals) := rfl
@[simp] theorem settleAll_mem (s : State) : (settleAll s).mem = memAfter s.mem (engineOf s).pending s.rivals := rfl
@[simp] theorem settleAll_holes (s : State) : (settleAll s).holes = holesAfter s.holes s.rivals := rfl
@[simp] theorem settleAll_written (s : State) : (settleAll s).written = s.written := rfl
@[simp] theorem settleAll_platform (s : State) : (settleAll s).platform = s.platform := rfl
@[simp] theorem settleAll_inbox (s : State) : (settleAll s).inbox = s.inbox := rfl
@[simp] theorem settleAll_replies (s : State) : (settleAll s).replies = s.replies := rfl
@[simp] theorem settleAll_rivals (s : State) : (settleAll s).rivals = [] := rfl
@[simp] theorem settleAll_observed (s : State) : (settleAll s).observed = s.observed ++ seenBy s.mem (engineOf s).pending s.rivals := rfl
@[simp] theorem settleAll_draws (s : State) : (settleAll s).draws = s.draws := rfl

/-! ### drainWrites -/

@[simp] theorem drainWrites_status (s : State) : (drainWrites s).status = s.status := rfl
@[simp] theorem drainWrites_src (s : State) : (drainWrites s).src = s.src := rfl
@[simp] theorem drainWrites_dst (s : State) : (drainWrites s).dst = s.dst := rfl
@[simp] theorem drainWrites_len (s : State) : (drainWrites s).len = s.len := rfl
@[simp] theorem drainWrites_cnt (s : State) : (drainWrites s).cnt = s.cnt := rfl
@[simp] theorem drainWrites_w (s : State) : (drainWrites s).w = s.w := rfl
@[simp] theorem drainWrites_acc (s : State) : (drainWrites s).acc = s.acc := rfl
@[simp] theorem drainWrites_out (s : State) : (drainWrites s).out = s.out := rfl
@[simp] theorem drainWrites_ref (s : State) : (drainWrites s).ref = s.ref := rfl
@[simp] theorem drainWrites_txt (s : State) : (drainWrites s).txt = s.txt := rfl
@[simp] theorem drainWrites_engine (s : State) : (drainWrites s).engine = withPending s.engine [] := rfl
@[simp] theorem drainWrites_mem (s : State) : (drainWrites s).mem = performWrites (engineOf s).pending s.mem := rfl
@[simp] theorem drainWrites_holes (s : State) : (drainWrites s).holes = s.holes := rfl
@[simp] theorem drainWrites_written (s : State) : (drainWrites s).written = s.written := rfl
@[simp] theorem drainWrites_platform (s : State) : (drainWrites s).platform = s.platform := rfl
@[simp] theorem drainWrites_inbox (s : State) : (drainWrites s).inbox = s.inbox := rfl
@[simp] theorem drainWrites_replies (s : State) : (drainWrites s).replies = s.replies := rfl
@[simp] theorem drainWrites_rivals (s : State) : (drainWrites s).rivals = s.rivals := rfl
@[simp] theorem drainWrites_observed (s : State) : (drainWrites s).observed = s.observed := rfl
@[simp] theorem drainWrites_draws (s : State) : (drainWrites s).draws = s.draws := rfl

/-! ### othersDone -/

@[simp] theorem othersDone_status (s : State) : (othersDone s).status = s.status := rfl
@[simp] theorem othersDone_src (s : State) : (othersDone s).src = s.src := rfl
@[simp] theorem othersDone_dst (s : State) : (othersDone s).dst = s.dst := rfl
@[simp] theorem othersDone_len (s : State) : (othersDone s).len = s.len := rfl
@[simp] theorem othersDone_cnt (s : State) : (othersDone s).cnt = s.cnt := rfl
@[simp] theorem othersDone_w (s : State) : (othersDone s).w = s.w := rfl
@[simp] theorem othersDone_acc (s : State) : (othersDone s).acc = s.acc := rfl
@[simp] theorem othersDone_out (s : State) : (othersDone s).out = s.out := rfl
@[simp] theorem othersDone_ref (s : State) : (othersDone s).ref = s.ref := rfl
@[simp] theorem othersDone_txt (s : State) : (othersDone s).txt = s.txt := rfl
@[simp] theorem othersDone_engine (s : State) : (othersDone s).engine = none := rfl
@[simp] theorem othersDone_mem (s : State) : (othersDone s).mem = memAfter s.mem [] s.rivals := rfl
@[simp] theorem othersDone_holes (s : State) : (othersDone s).holes = holesAfter s.holes s.rivals := rfl
@[simp] theorem othersDone_written (s : State) : (othersDone s).written = s.written := rfl
@[simp] theorem othersDone_platform (s : State) : (othersDone s).platform = s.platform := rfl
@[simp] theorem othersDone_inbox (s : State) : (othersDone s).inbox = s.inbox := rfl
@[simp] theorem othersDone_replies (s : State) : (othersDone s).replies = s.replies := rfl
@[simp] theorem othersDone_rivals (s : State) : (othersDone s).rivals = [] := rfl
@[simp] theorem othersDone_observed (s : State) : (othersDone s).observed = s.observed ++ seenBy s.mem [] s.rivals := rfl
@[simp] theorem othersDone_draws (s : State) : (othersDone s).draws = s.draws := rfl

/-! ### performAct -/

@[simp] theorem performAct_status (act : AgentAct) (s : State) : (performAct act s).status = s.status := rfl
@[simp] theorem performAct_src (act : AgentAct) (s : State) : (performAct act s).src = s.src := rfl
@[simp] theorem performAct_dst (act : AgentAct) (s : State) : (performAct act s).dst = s.dst := rfl
@[simp] theorem performAct_len (act : AgentAct) (s : State) : (performAct act s).len = s.len := rfl
@[simp] theorem performAct_cnt (act : AgentAct) (s : State) : (performAct act s).cnt = s.cnt := rfl
@[simp] theorem performAct_w (act : AgentAct) (s : State) : (performAct act s).w = s.w := rfl
@[simp] theorem performAct_acc (act : AgentAct) (s : State) : (performAct act s).acc = s.acc := rfl
@[simp] theorem performAct_out (act : AgentAct) (s : State) : (performAct act s).out = s.out := rfl
@[simp] theorem performAct_ref (act : AgentAct) (s : State) : (performAct act s).ref = s.ref := rfl
@[simp] theorem performAct_txt (act : AgentAct) (s : State) : (performAct act s).txt = s.txt := rfl
@[simp] theorem performAct_engine (act : AgentAct) (s : State) : (performAct act s).engine = s.engine := rfl
@[simp] theorem performAct_mem (act : AgentAct) (s : State) : (performAct act s).mem = actMem s.mem [] act := rfl
@[simp] theorem performAct_holes (act : AgentAct) (s : State) : (performAct act s).holes = actHoles s.holes act := rfl
@[simp] theorem performAct_written (act : AgentAct) (s : State) : (performAct act s).written = s.written := rfl
@[simp] theorem performAct_platform (act : AgentAct) (s : State) : (performAct act s).platform = s.platform := rfl
@[simp] theorem performAct_inbox (act : AgentAct) (s : State) : (performAct act s).inbox = s.inbox := rfl
@[simp] theorem performAct_replies (act : AgentAct) (s : State) : (performAct act s).replies = s.replies := rfl
@[simp] theorem performAct_rivals (act : AgentAct) (s : State) : (performAct act s).rivals = s.rivals := rfl
@[simp] theorem performAct_observed (act : AgentAct) (s : State) : (performAct act s).observed = s.observed ++ actSees s.mem act := rfl
@[simp] theorem performAct_draws (act : AgentAct) (s : State) : (performAct act s).draws = s.draws := rfl

/-! ### finishPass -/

@[simp] theorem finishPass_status (s : State) : (finishPass s).status = okStatus s.status := rfl
@[simp] theorem finishPass_src (s : State) : (finishPass s).src = s.src := rfl
@[simp] theorem finishPass_dst (s : State) : (finishPass s).dst = s.dst := rfl
@[simp] theorem finishPass_len (s : State) : (finishPass s).len = s.len := rfl
@[simp] theorem finishPass_cnt (s : State) : (finishPass s).cnt = BitVec.ofNat 19 (wordCount s.len) := rfl
@[simp] theorem finishPass_w (s : State) : (finishPass s).w = s.w := rfl
@[simp] theorem finishPass_acc (s : State) : (finishPass s).acc = (engineOf s).sum := rfl
@[simp] theorem finishPass_out (s : State) : (finishPass s).out = (engineOf s).sum := rfl
@[simp] theorem finishPass_ref (s : State) : (finishPass s).ref = s.ref := rfl
@[simp] theorem finishPass_txt (s : State) : (finishPass s).txt = s.txt := rfl
@[simp] theorem finishPass_engine (s : State) : (finishPass s).engine = none := rfl
@[simp] theorem finishPass_mem (s : State) : (finishPass s).mem = (drainWrites (settleAll s)).mem := rfl
@[simp] theorem finishPass_holes (s : State) : (finishPass s).holes = holesAfter s.holes s.rivals := rfl
@[simp] theorem finishPass_written (s : State) : (finishPass s).written = s.written := rfl
@[simp] theorem finishPass_platform (s : State) : (finishPass s).platform = s.platform := rfl
@[simp] theorem finishPass_inbox (s : State) : (finishPass s).inbox = s.inbox := rfl
@[simp] theorem finishPass_replies (s : State) : (finishPass s).replies = s.replies := rfl
@[simp] theorem finishPass_rivals (s : State) : (finishPass s).rivals = [] := rfl
@[simp] theorem finishPass_observed (s : State) : (finishPass s).observed = s.observed ++ seenBy s.mem (engineOf s).pending s.rivals := rfl
@[simp] theorem finishPass_draws (s : State) : (finishPass s).draws = s.draws := rfl

/-! ### resetBlock -/

@[simp] theorem resetBlock_status (s : State) : (resetBlock s).status = { ok := false, err := none, eq := false } := rfl
@[simp] theorem resetBlock_src (s : State) : (resetBlock s).src = Config.unwrittenValue := rfl
@[simp] theorem resetBlock_dst (s : State) : (resetBlock s).dst = Config.unwrittenValue := rfl
@[simp] theorem resetBlock_len (s : State) : (resetBlock s).len = Config.unwrittenValue := rfl
@[simp] theorem resetBlock_cnt (s : State) : (resetBlock s).cnt = 0 := rfl
@[simp] theorem resetBlock_w (s : State) : (resetBlock s).w = unwrittenGroup := rfl
@[simp] theorem resetBlock_acc (s : State) : (resetBlock s).acc = Accum.ident := rfl
@[simp] theorem resetBlock_out (s : State) : (resetBlock s).out = Accum.ident := rfl
@[simp] theorem resetBlock_ref (s : State) : (resetBlock s).ref = unwrittenAccum := rfl
@[simp] theorem resetBlock_txt (s : State) : (resetBlock s).txt = unwrittenText := rfl
@[simp] theorem resetBlock_engine (s : State) : (resetBlock s).engine = none := rfl
@[simp] theorem resetBlock_mem (s : State) : (resetBlock s).mem = s.mem := rfl
@[simp] theorem resetBlock_holes (s : State) : (resetBlock s).holes = s.holes := rfl
@[simp] theorem resetBlock_written (s : State) : (resetBlock s).written = nothingWritten := rfl
@[simp] theorem resetBlock_platform (s : State) : (resetBlock s).platform = s.platform := rfl
@[simp] theorem resetBlock_inbox (s : State) : (resetBlock s).inbox = s.inbox := rfl
@[simp] theorem resetBlock_replies (s : State) : (resetBlock s).replies = s.replies := rfl
@[simp] theorem resetBlock_rivals (s : State) : (resetBlock s).rivals = s.rivals := rfl
@[simp] theorem resetBlock_observed (s : State) : (resetBlock s).observed = s.observed := rfl
@[simp] theorem resetBlock_draws (s : State) : (resetBlock s).draws = s.draws := rfl

@[simp] theorem engineOf_setEngine (s : State) (e : Engine) : engineOf (setEngine s e) = e := rfl

@[simp] theorem setEngine_setEngine (s : State) (e e' : Engine) : setEngine (setEngine s e) e' = setEngine s e' := rfl

@[simp] theorem andThen_next (s : State) (f : State → StepResult) : andThen (.next s) f = f s := rfl

@[simp] theorem andThen_fault (r : Fault) (f : State → StepResult) : andThen (.fault r) f = .fault r := rfl

@[simp] theorem andThen_refused (r : Refusal) (f : State → StepResult) : andThen (.refused r) f = .refused r := rfl

/-- What `andThen` answers with a next state: both parts did. -/
theorem andThen_eq_next {o : StepResult} {f : State → StepResult} {t : State} (h : andThen o f = .next t) :
    ∃ u, o = .next u ∧ f u = .next t := by
  cases o with
  | next u => exact ⟨u, rfl, h⟩
  | fault r => cases h
  | refused r => cases h

end Sys2Proof.Machine
end

