-- ==== Sys2Proof/Laws/Agents.lean ====
section
/-! SUPPORT. What armed acts do to data memory, to the writes outstanding and to what memory admits, what other agents see, and the
state in which everything has landed (R45, R48, R49). -/

namespace Sys2Proof.Machine

/-- No act of `rs` writes the byte at `a`. -/
abbrev rivalsMiss (rs : List Rival) (a : Nat) : Prop := ∀ r ∈ rs, actWrites r.act ≠ some a

/-- No act of `rs` reads the byte at `a`. -/
abbrev rivalsBlind (rs : List Rival) (a : Nat) : Prop := ∀ r ∈ rs, actReads r.act ≠ some a

/-- No act of `rs` changes what data memory admits. -/
abbrev noRemap (rs : List Rival) : Prop := ∀ r ∈ rs, actRemaps r.act = none

/-- No write of `ws` is to the byte at `b`. -/
abbrev writesMiss (ws : List IssuedWrite) (b : Nat) : Prop := ∀ w ∈ ws, b < w.addr ∨ w.addr + 8 ≤ b

/-- No write of `ws` is to a byte of the word at `a`. -/
abbrev writesApart (ws : List IssuedWrite) (a : Nat) : Prop := ∀ w ∈ ws, w.addr + 8 ≤ a ∨ a + 8 ≤ w.addr

/-! ### Performing issued writes -/

@[simp] theorem performWrites_nil (m : List Host.Cell) : performWrites [] m = m := rfl

@[simp] theorem performWrites_cons (w : IssuedWrite) (ws : List IssuedWrite) (m : List Host.Cell) :
    performWrites (w :: ws) m = performWrites ws (Memory.writeWord m w.addr w.value) := rfl

theorem performWrites_append (ws ws' : List IssuedWrite) (m : List Host.Cell) :
    performWrites (ws ++ ws') m = performWrites ws' (performWrites ws m) := List.foldl_append

theorem wf_performWrites {m : List Host.Cell} (ws : List IssuedWrite) (h : Memory.wf m) : Memory.wf (performWrites ws m) := by
  induction ws generalizing m with
  | nil => exact h
  | cons w ws ih => exact ih (Memory.wf_writeWord _ _ h)

theorem byteAt_performWrites_other {ws : List IssuedWrite} {b : Nat} (h : writesMiss ws b) (m : List Host.Cell) :
    Memory.byteAt (performWrites ws m) b = Memory.byteAt m b := by
  induction ws generalizing m with
  | nil => rfl
  | cons w ws ih =>
    rw [performWrites_cons, ih fun x hx => h x (by simp [hx]), Memory.byteAt_writeWord_other _ _ (h w (by simp))]

/-- A byte after some writes depends on no other byte before them. -/
theorem byteAt_performWrites_congr {m m' : List Host.Cell} {b : Nat} (h : Memory.byteAt m b = Memory.byteAt m' b)
    (ws : List IssuedWrite) : Memory.byteAt (performWrites ws m) b = Memory.byteAt (performWrites ws m') b := by
  induction ws generalizing m m' with
  | nil => exact h
  | cons w ws ih =>
    refine ih ?_
    by_cases hb : b < w.addr ∨ w.addr + 8 ≤ b
    · rw [Memory.byteAt_writeWord_other _ _ hb, Memory.byteAt_writeWord_other _ _ hb, h]
    · obtain ⟨k, hk, rfl⟩ : ∃ k < 8, b = w.addr + k := ⟨b - w.addr, by omega, by omega⟩
      rw [Memory.byteAt_writeWord_same _ _ _ hk, Memory.byteAt_writeWord_same _ _ _ hk]

/-- A word apart from all of some writes may be written before or after them. -/
theorem performWrites_writeWord {ws : List IssuedWrite} {a : Nat} (h : writesApart ws a) (m : List Host.Cell) (v : Word) :
    performWrites ws (Memory.writeWord m a v) = Memory.writeWord (performWrites ws m) a v := by
  induction ws generalizing m with
  | nil => rfl
  | cons w ws ih =>
    have hw := h w (by simp)
    rw [performWrites_cons, performWrites_cons, Memory.writeWord_comm _ (by omega), ih fun x hx => h x (by simp [hx])]

theorem mem_of_mem_issuedTo {addr : Word} {ws : List IssuedWrite} {w : IssuedWrite} (h : w ∈ issuedTo addr ws) : w ∈ ws :=
  List.mem_of_mem_filter h

theorem mem_of_mem_issuedElsewhere {addr : Word} {ws : List IssuedWrite} {w : IssuedWrite} (h : w ∈ issuedElsewhere addr ws) :
    w ∈ ws := List.mem_of_mem_filter h

/-! ### Acts, one after the other -/

@[simp] theorem memAfter_nil (m : List Host.Cell) (ws : List IssuedWrite) : memAfter m ws [] = m := rfl

@[simp] theorem pendingAfter_nil (ws : List IssuedWrite) : pendingAfter ws [] = ws := rfl

@[simp] theorem seenBy_nil (m : List Host.Cell) (ws : List IssuedWrite) : seenBy m ws [] = [] := rfl

@[simp] theorem holesAfter_nil (holes : List Region) : holesAfter holes [] = holes := rfl

@[simp] theorem memAfter_cons (m : List Host.Cell) (ws : List IssuedWrite) (r : Rival) (rs : List Rival) :
    memAfter m ws (r :: rs) = memAfter (actMem m ws r.act) (actPending ws r.act) rs := rfl

@[simp] theorem pendingAfter_cons (ws : List IssuedWrite) (r : Rival) (rs : List Rival) :
    pendingAfter ws (r :: rs) = pendingAfter (actPending ws r.act) rs := rfl

@[simp] theorem seenBy_cons (m : List Host.Cell) (ws : List IssuedWrite) (r : Rival) (rs : List Rival) :
    seenBy m ws (r :: rs) = actSees m r.act ++ seenBy (actMem m ws r.act) (actPending ws r.act) rs := rfl

@[simp] theorem holesAfter_cons (holes : List Region) (r : Rival) (rs : List Rival) :
    holesAfter holes (r :: rs) = holesAfter (actHoles holes r.act) rs := rfl

theorem memAfter_append (m : List Host.Cell) (ws : List IssuedWrite) (rs rs' : List Rival) :
    memAfter m ws (rs ++ rs') = memAfter (memAfter m ws rs) (pendingAfter ws rs) rs' := by
  induction rs generalizing m ws with
  | nil => rfl
  | cons r rs ih => exact ih _ _

theorem pendingAfter_append (ws : List IssuedWrite) (rs rs' : List Rival) :
    pendingAfter ws (rs ++ rs') = pendingAfter (pendingAfter ws rs) rs' := List.foldl_append

theorem seenBy_append (m : List Host.Cell) (ws : List IssuedWrite) (rs rs' : List Rival) :
    seenBy m ws (rs ++ rs') = seenBy m ws rs ++ seenBy (memAfter m ws rs) (pendingAfter ws rs) rs' := by
  induction rs generalizing m ws with
  | nil => rfl
  | cons r rs ih => simp [ih]

theorem holesAfter_append (holes : List Region) (rs rs' : List Rival) :
    holesAfter holes (rs ++ rs') = holesAfter (holesAfter holes rs) rs' := List.foldl_append

theorem mem_of_mem_actPending {act : AgentAct} {ws : List IssuedWrite} {w : IssuedWrite} (h : w ∈ actPending ws act) : w ∈ ws := by
  cases act with
  | perform addr => exact mem_of_mem_issuedElsewhere h
  | write addr byte => exact h
  | read addr => exact h
  | remap holes => exact h

/-- Acts issue no write. -/
theorem mem_of_mem_pendingAfter {rs : List Rival} {ws : List IssuedWrite} {w : IssuedWrite} (h : w ∈ pendingAfter ws rs) :
    w ∈ ws := by
  induction rs generalizing ws with
  | nil => exact h
  | cons r rs ih => exact mem_of_mem_actPending (ih h)

@[simp] theorem pendingAfter_nothing (rs : List Rival) : pendingAfter [] rs = [] :=
  List.eq_nil_iff_forall_not_mem.2 fun _ h => absurd (mem_of_mem_pendingAfter h) List.not_mem_nil

theorem wf_actMem {m : List Host.Cell} (ws : List IssuedWrite) (act : AgentAct) (h : Memory.wf m) : Memory.wf (actMem m ws act) := by
  cases act with
  | write addr byte => exact Memory.wf_write _ _ h
  | read addr => exact h
  | perform addr => exact wf_performWrites _ h
  | remap holes => exact h

theorem wf_memAfter {m : List Host.Cell} (ws : List IssuedWrite) (rs : List Rival) (h : Memory.wf m) :
    Memory.wf (memAfter m ws rs) := by
  induction rs generalizing m ws with
  | nil => exact h
  | cons r rs ih => exact ih _ (wf_actMem ws r.act h)

theorem byteAt_actMem {m : List Host.Cell} {ws : List IssuedWrite} {act : AgentAct} {a : Nat} (h : actWrites act ≠ some a)
    (hw : writesMiss ws a) : Memory.byteAt (actMem m ws act) a = Memory.byteAt m a := by
  cases act with
  | write addr byte => exact Memory.byteAt_write_other _ _ fun e => h (congrArg some e.symm)
  | read addr => rfl
  | perform addr => exact byteAt_performWrites_other (fun w hm => hw w (mem_of_mem_issuedTo hm)) m
  | remap holes => rfl

/-- A byte that no act and no outstanding write is to stays. -/
theorem byteAt_memAfter {m : List Host.Cell} {ws : List IssuedWrite} {rs : List Rival} {a : Nat} (h : rivalsMiss rs a)
    (hw : writesMiss ws a) : Memory.byteAt (memAfter m ws rs) a = Memory.byteAt m a := by
  induction rs generalizing m ws with
  | nil => rfl
  | cons r rs ih =>
    rw [memAfter_cons, ih (fun q hq => h q (by simp [hq])) fun w hm => hw w (mem_of_mem_actPending hm),
      byteAt_actMem (h r (by simp)) hw]

/-- A word that an act does not write, and that no outstanding write is to, may be written before or after it. -/
theorem actMem_writeWord {act : AgentAct} {ws : List IssuedWrite} {a : Nat} (h : ∀ k < 8, actWrites act ≠ some (a + k))
    (hw : writesApart ws a) (m : List Host.Cell) (v : Word) :
    actMem (Memory.writeWord m a v) ws act = Memory.writeWord (actMem m ws act) a v := by
  cases act with
  | write addr byte => exact (Memory.writeWord_write_comm m (fun k hk e => h k hk (congrArg some e.symm)) v byte).symm
  | read addr => rfl
  | perform addr => exact performWrites_writeWord (fun w hm => hw w (mem_of_mem_issuedTo hm)) m v
  | remap holes => rfl

/-! ### Data memory once everything has landed -/

/-- Data memory once the acts `rs` have been performed and then every write still outstanding. -/
def landedMem (m : List Host.Cell) (ws : List IssuedWrite) (rs : List Rival) : List Host.Cell :=
  performWrites (pendingAfter ws rs) (memAfter m ws rs)

theorem landedMem_cons (m : List Host.Cell) (ws : List IssuedWrite) (r : Rival) (rs : List Rival) :
    landedMem m ws (r :: rs) = landedMem (actMem m ws r.act) (actPending ws r.act) rs := rfl

theorem wf_landedMem {m : List Host.Cell} (ws : List IssuedWrite) (rs : List Rival) (h : Memory.wf m) :
    Memory.wf (landedMem m ws rs) := wf_performWrites _ (wf_memAfter _ _ h)

theorem byteAt_landedMem {m : List Host.Cell} {ws : List IssuedWrite} {rs : List Rival} {a : Nat} (h : rivalsMiss rs a)
    (hw : writesMiss ws a) : Memory.byteAt (landedMem m ws rs) a = Memory.byteAt m a := by
  rw [landedMem, byteAt_performWrites_other (fun w hm => hw w (mem_of_mem_pendingAfter hm)), byteAt_memAfter h hw]

/-- A word that no act and no outstanding write is to may be written first or last. -/
theorem landedMem_writeWord {rs : List Rival} {ws : List IssuedWrite} {a : Nat} (h : ∀ k < 8, rivalsMiss rs (a + k))
    (hw : writesApart ws a) (m : List Host.Cell) (v : Word) :
    landedMem (Memory.writeWord m a v) ws rs = Memory.writeWord (landedMem m ws rs) a v := by
  induction rs generalizing m ws with
  | nil => exact performWrites_writeWord hw m v
  | cons r rs ih =>
    rw [landedMem_cons, landedMem_cons, actMem_writeWord (fun k hk => h k hk r (by simp)) hw,
      ih (fun k hk q hq => h k hk q (by simp [hq])) fun w hm => hw w (mem_of_mem_actPending hm)]

/-- What an act makes of one more outstanding write: it performs it, or leaves it outstanding. -/
theorem act_issue (m : List Host.Cell) (ws : List IssuedWrite) (w : IssuedWrite) (act : AgentAct) :
    (actMem m (ws ++ [w]) act = Memory.writeWord (actMem m ws act) w.addr w.value ∧
      actPending (ws ++ [w]) act = actPending ws act) ∨
    (actMem m (ws ++ [w]) act = actMem m ws act ∧ actPending (ws ++ [w]) act = actPending ws act ++ [w]) := by
  cases act with
  | write addr byte => exact .inr ⟨rfl, rfl⟩
  | read addr => exact .inr ⟨rfl, rfl⟩
  | remap holes => exact .inr ⟨rfl, rfl⟩
  | perform addr =>
    by_cases hw : w.addr = addr.toNat
    · left
      simp [actMem, actPending, issuedTo, issuedElsewhere, List.filter_append, hw, performWrites_append]
    · right
      simp [actMem, actPending, issuedTo, issuedElsewhere, List.filter_append, hw]

/-- An outstanding write to a word that no act writes, and no other outstanding write is to, lands. -/
theorem landedMem_issue {rs : List Rival} {ws : List IssuedWrite} {a : Nat} (h : ∀ k < 8, rivalsMiss rs (a + k))
    (hw : writesApart ws a) (m : List Host.Cell) (v : Word) :
    landedMem m (ws ++ [⟨a, v⟩]) rs = Memory.writeWord (landedMem m ws rs) a v := by
  induction rs generalizing m ws with
  | nil => exact performWrites_append ws [⟨a, v⟩] m
  | cons r rs ih =>
    have h' : ∀ k < 8, rivalsMiss rs (a + k) := fun k hk q hq => h k hk q (by simp [hq])
    have hw' : writesApart (actPending ws r.act) a := fun w hm => hw w (mem_of_mem_actPending hm)
    rw [landedMem_cons, landedMem_cons]
    rcases act_issue m ws ⟨a, v⟩ r.act with ⟨h1, h2⟩ | ⟨h1, h2⟩
    · rw [h1, h2, landedMem_writeWord h' hw']
    · rw [h1, h2, ih h' hw']

/-- An outstanding write changes no byte outside its word, whatever acts there are. -/
theorem byteAt_landedMem_issue {m m' : List Host.Cell} {b : Nat} (h : Memory.byteAt m b = Memory.byteAt m' b)
    (ws : List IssuedWrite) {w : IssuedWrite} (hb : b < w.addr ∨ w.addr + 8 ≤ b) (rs : List Rival) :
    Memory.byteAt (landedMem m (ws ++ [w]) rs) b = Memory.byteAt (landedMem m' ws rs) b ∧
    Memory.byteAt (landedMem m ws rs) b = Memory.byteAt (landedMem m' ws rs) b := by
  have hact : ∀ {m m' : List Host.Cell} (ws : List IssuedWrite) (act : AgentAct), Memory.byteAt m b = Memory.byteAt m' b →
      Memory.byteAt (actMem m ws act) b = Memory.byteAt (actMem m' ws act) b := by
    intro m m' ws act h
    cases act with
    | write addr byte =>
      by_cases hab : b = addr.toNat
      · subst hab
        simp [actMem]
      · simpa [actMem, Memory.byteAt_write_other _ _ hab] using h
    | read addr => exact h
    | perform addr => exact byteAt_performWrites_congr h _
    | remap holes => exact h
  induction rs generalizing m m' ws with
  | nil =>
    refine ⟨?_, byteAt_performWrites_congr h ws⟩
    show Memory.byteAt (performWrites (ws ++ [w]) m) b = Memory.byteAt (performWrites ws m') b
    rw [performWrites_append]
    exact (Memory.byteAt_writeWord_other _ _ hb).trans (byteAt_performWrites_congr h ws)
  | cons r rs ih =>
    simp only [landedMem_cons]
    have h1 := ih (hact ws r.act h) (actPending ws r.act)
    refine ⟨?_, h1.2⟩
    rcases act_issue m ws w r.act with ⟨e1, e2⟩ | ⟨e1, e2⟩
    · rw [e1, e2]
      exact (ih ((Memory.byteAt_writeWord_other _ _ hb).trans (hact ws r.act h)) (actPending ws r.act)).2
    · rw [e1, e2]
      exact h1.1

/-- An act that reads no byte of a word sees the same, whether it is written before or after. -/
theorem actSees_writeWord {act : AgentAct} {a : Nat} (h : ∀ k < 8, actReads act ≠ some (a + k)) (m : List Host.Cell) (v : Word) :
    actSees (Memory.writeWord m a v) act = actSees m act := by
  simp only [actSees]
  cases hr : actReads act with
  | none => rfl
  | some b =>
    have hb : b < a ∨ a + 8 ≤ b := by
      by_contra hc
      exact h (b - a) (by omega) (by rw [hr]; congr 1; omega)
    simp only [Option.map_some, Memory.byteAt_writeWord_other m v hb]

/-- Other agents that read and write no byte of a word see the same, whether it is written before or after their acts. -/
theorem seenBy_writeWord {rs : List Rival} {ws : List IssuedWrite} {a : Nat} (h : ∀ k < 8, rivalsMiss rs (a + k))
    (hs : ∀ k < 8, rivalsBlind rs (a + k)) (hw : writesApart ws a) (m : List Host.Cell) (v : Word) :
    seenBy (Memory.writeWord m a v) ws rs = seenBy m ws rs := by
  induction rs generalizing m ws with
  | nil => rfl
  | cons r rs ih =>
    rw [seenBy_cons, seenBy_cons, actMem_writeWord (fun k hk => h k hk r (by simp)) hw,
      actSees_writeWord fun k hk => hs k hk r (by simp),
      ih (fun k hk q hq => h k hk q (by simp [hq])) (fun k hk q hq => hs k hk q (by simp [hq]))
        fun w hm => hw w (mem_of_mem_actPending hm)]

/-- They see the same, whether it is outstanding or not. -/
theorem seenBy_issue {rs : List Rival} {ws : List IssuedWrite} {a : Nat} (h : ∀ k < 8, rivalsMiss rs (a + k))
    (hs : ∀ k < 8, rivalsBlind rs (a + k)) (hw : writesApart ws a) (m : List Host.Cell) (v : Word) :
    seenBy m (ws ++ [⟨a, v⟩]) rs = seenBy m ws rs := by
  induction rs generalizing m ws with
  | nil => rfl
  | cons r rs ih =>
    have h' : ∀ k < 8, rivalsMiss rs (a + k) := fun k hk q hq => h k hk q (by simp [hq])
    have hs' : ∀ k < 8, rivalsBlind rs (a + k) := fun k hk q hq => hs k hk q (by simp [hq])
    have hw' : writesApart (actPending ws r.act) a := fun w hm => hw w (mem_of_mem_actPending hm)
    rw [seenBy_cons, seenBy_cons]
    rcases act_issue m ws ⟨a, v⟩ r.act with ⟨h1, h2⟩ | ⟨h1, h2⟩
    · rw [h1, h2, seenBy_writeWord h' hs' hw']
    · rw [h1, h2, ih h' hs' hw']

/-! ### What memory admits -/

/-- Whatever is remapped, an access that each mapping admits is admitted. -/
theorem admits_holesAfter {kind : AccessKind} {a : Nat} {holes : List Region} {rs : List Rival}
    (h : admits kind holes a = true) (hr : ∀ r ∈ rs, ∀ hs ∈ actRemaps r.act, admits kind hs a = true) :
    admits kind (holesAfter holes rs) a = true := by
  induction rs generalizing holes with
  | nil => exact h
  | cons r rs ih =>
    rw [holesAfter_cons]
    refine ih ?_ fun q hq => hr q (by simp [hq])
    cases hact : r.act with
    | write addr byte => exact h
    | read addr => exact h
    | perform addr => exact h
    | remap hs => exact hr r (by simp) hs (by rw [hact]; rfl)

theorem holesAfter_eq_of_no_remap {holes : List Region} {rs : List Rival} (h : noRemap rs) :
    holesAfter holes rs = holes := by
  induction rs with
  | nil => rfl
  | cons r rs ih => rw [holesAfter_cons, actHoles, h r (by simp), Option.getD_none, ih fun q hq => h q (by simp [hq])]

/-! ### The queue of armed acts -/

theorem dueBy_append_notDueBy (tick : Nat) (rs : List Rival) : dueBy tick rs ++ notDueBy tick rs = rs :=
  List.takeWhile_append_dropWhile

theorem mem_of_mem_dueBy {tick : Nat} {rs : List Rival} {r : Rival} (h : r ∈ dueBy tick rs) : r ∈ rs := by
  rw [← dueBy_append_notDueBy tick rs]
  exact List.mem_append_left _ h

theorem mem_of_mem_notDueBy {tick : Nat} {rs : List Rival} {r : Rival} (h : r ∈ notDueBy tick rs) : r ∈ rs := by
  rw [← dueBy_append_notDueBy tick rs]
  exact List.mem_append_right _ h

/-- What is due later is what is due now and then what of the rest is due later. -/
theorem dueBy_later {tick later : Nat} (h : tick ≤ later) (rs : List Rival) :
    dueBy later rs = dueBy tick rs ++ dueBy later (notDueBy tick rs) := by
  induction rs with
  | nil => rfl
  | cons r rs ih =>
    by_cases hr : r.after ≤ tick
    · have hr' : r.after ≤ later := by omega
      simp only [dueBy, notDueBy, hr, hr', List.takeWhile_cons, List.dropWhile_cons, decide_true, if_true, List.cons_append] at ih ⊢
      rw [ih]
    · simp [dueBy, notDueBy, hr]

/-! ### Settling -/

@[simp] theorem withPending_withPending (e : Option Engine) (ws ws' : List IssuedWrite) :
    withPending (withPending e ws) ws' = withPending e ws' := by cases e <;> rfl

/-- With the writes outstanding replaced, the rest of the hidden state stays. -/
theorem withPending_getD {e : Option Engine} {ws : List IssuedWrite} (h : e = none → ws = []) :
    (withPending e ws).getD freshEngine = { e.getD freshEngine with pending := ws } := by
  cases e with
  | none =>
    rw [h rfl]
    rfl
  | some e => rfl

theorem engineOf_none {s : State} (h : s.engine = none) : engineOf s = freshEngine := by rw [engineOf, h]; rfl

theorem engineOf_settleWith (due later : List Rival) (s : State) :
    engineOf (settleWith due later s) = { engineOf s with pending := pendingAfter (engineOf s).pending due } :=
  withPending_getD fun h => by
    rw [engineOf_none h]
    exact pendingAfter_nothing due

theorem engineOf_settle (s : State) : engineOf (settle s) =
    { engineOf s with pending := pendingAfter (engineOf s).pending (dueBy (engineOf s).tick s.rivals) } :=
  engineOf_settleWith _ _ s

theorem engineOf_settleAll (s : State) : engineOf (settleAll s) =
    { engineOf s with pending := pendingAfter (engineOf s).pending s.rivals } := engineOf_settleWith _ _ s

/-- Settling does not change which mapping a later access meets. -/
theorem holesAt_settle (s : State) {tick : Nat} (h : (engineOf s).tick ≤ tick) : holesAt (settle s) tick = holesAt s tick := by
  rw [holesAt, holesAt, dueBy_later h s.rivals, holesAfter_append]
  rfl

/-- The state once everything armed has happened and every write issued has been performed. -/
def landed (s : State) : State := drainWrites (settleAll s)

theorem landed_eq (s : State) : landed s = { s with
    mem := landedMem s.mem (engineOf s).pending s.rivals
    holes := holesAfter s.holes s.rivals
    observed := s.observed ++ seenBy s.mem (engineOf s).pending s.rivals
    engine := withPending s.engine []
    rivals := [] } := by
  simp only [landed, drainWrites, engineOf_settleAll, settleAll_engine, withPending_withPending]
  rfl

theorem landed_mem (s : State) : (landed s).mem = landedMem s.mem (engineOf s).pending s.rivals := by rw [landed_eq]

theorem engineOf_landed (s : State) : engineOf (landed s) = { engineOf s with pending := [] } := by
  rw [landed_eq]
  exact withPending_getD fun _ => rfl

/-- Performing what is due first changes nothing of where everything lands. -/
theorem landed_settle (s : State) : landed (settle s) = landed s := by
  rw [landed_eq, landed_eq, engineOf_settle]
  simp only [settle, settleWith, landedMem, List.append_assoc, ← seenBy_append, ← memAfter_append, ← pendingAfter_append,
    ← holesAfter_append, dueBy_append_notDueBy, withPending_withPending]

end Sys2Proof.Machine
end

