-- ==== Sys2Proof/Laws/Checks.lean ====
section
/-! SUPPORT. The word count and the entry checks as conditions on numbers (R56, R90, R98). -/

namespace Sys2Proof.Machine

/-- `N = floor(LEN / 8)` (R56). -/
theorem wordCount_eq (len : Word) : wordCount len = len.toNat / 8 := by
  have := len.isLt
  simp only [wordCount, BitVec.extractLsb'_toNat, Nat.shiftRight_eq_div_pow]
  omega

theorem wordLimit_le_wordCount (len : Word) : wordLimit ≤ wordCount len ↔ 2 ^ 22 ≤ len.toNat := by
  rw [wordCount_eq, wordLimit]
  omega

/-- When CSUM's checks all pass (R90). -/
theorem csumCheck_eq_none {src len : Word} : csumCheck src len = none ↔
    len.toNat < 2 ^ 22 ∧ len.toNat % 32 = 0 ∧ src.toNat % 8 = 0 ∧ src.toNat + len.toNat ≤ 2 ^ 64 := by
  have hA : addressSpace = 2 ^ 64 := rfl
  simp only [csumCheck, wordLimit_le_wordCount]
  split_ifs <;> simp <;> omega

/-- When CSUM reports SIZE_TOO_LARGE (R90, R112). -/
theorem csumCheck_eq_size {src len : Word} : csumCheck src len = some .sizeTooLarge ↔ 2 ^ 22 ≤ len.toNat := by
  have hA : addressSpace = 2 ^ 64 := rfl
  simp only [csumCheck, wordLimit_le_wordCount]
  split_ifs <;> simp <;> omega

/-- When CSUM reports PRECONDITION (R90, R113). -/
theorem csumCheck_eq_pre {src len : Word} : csumCheck src len = some .precondition ↔
    len.toNat < 2 ^ 22 ∧ (len.toNat % 32 ≠ 0 ∨ src.toNat % 8 ≠ 0 ∨ 2 ^ 64 < src.toNat + len.toNat) := by
  have hA : addressSpace = 2 ^ 64 := rfl
  simp only [csumCheck, wordLimit_le_wordCount]
  split_ifs <;> simp <;> omega

theorem overlaps_iff {src dst len : Nat} : overlaps src dst len = true ↔ 0 < len ∧ src < dst + len ∧ dst < src + len := by
  simp [overlaps, and_assoc]

/-- When the checks of COPY.* all pass (R98). -/
theorem copyCheck_eq_none {src dst len : Word} : copyCheck src dst len = none ↔
    len.toNat < 2 ^ 22 ∧ len.toNat % 32 = 0 ∧ src.toNat % 16 = 0 ∧ dst.toNat % 16 = 0 ∧
    src.toNat + len.toNat ≤ 2 ^ 64 ∧ dst.toNat + len.toNat ≤ 2 ^ 64 ∧
    (len.toNat = 0 ∨ src.toNat + len.toNat ≤ dst.toNat ∨ dst.toNat + len.toNat ≤ src.toNat) := by
  have hA : addressSpace = 2 ^ 64 := rfl
  simp only [copyCheck, wordLimit_le_wordCount, overlaps_iff]
  split_ifs <;> simp <;> omega

/-- When COPY.* reports SIZE_TOO_LARGE (R98, R112). -/
theorem copyCheck_eq_size {src dst len : Word} :
    copyCheck src dst len = some .sizeTooLarge ↔ 2 ^ 22 ≤ len.toNat := by
  have hA : addressSpace = 2 ^ 64 := rfl
  simp only [copyCheck, wordLimit_le_wordCount, overlaps_iff]
  split_ifs <;> simp <;> omega

/-- When COPY.* reports PRECONDITION (R98, R113). -/
theorem copyCheck_eq_pre {src dst len : Word} : copyCheck src dst len = some .precondition ↔
    len.toNat < 2 ^ 22 ∧ (len.toNat % 32 ≠ 0 ∨ src.toNat % 16 ≠ 0 ∨ dst.toNat % 16 ≠ 0 ∨
      2 ^ 64 < src.toNat + len.toNat ∨ 2 ^ 64 < dst.toNat + len.toNat ∨
      (0 < len.toNat ∧ src.toNat < dst.toNat + len.toNat ∧ dst.toNat < src.toNat + len.toNat)) := by
  have hA : addressSpace = 2 ^ 64 := rfl
  simp only [copyCheck, wordLimit_le_wordCount, overlaps_iff]
  split_ifs <;> simp <;> omega

/-- No check ever reports ILLEGAL_COMMAND (R117). -/
theorem csumCheck_ne_illegal (src len : Word) : csumCheck src len ≠ some .illegalCommand := by
  rw [csumCheck]
  split_ifs <;> simp

theorem copyCheck_ne_illegal (src dst len : Word) : copyCheck src dst len ≠ some .illegalCommand := by
  rw [copyCheck]
  split_ifs <;> simp

end Sys2Proof.Machine
end

