-- ==== Sys2Proof/Laws/Fold.lean ====
section
/-! SUPPORT. Folding in pieces (R71) and what a chunk contributes. -/

namespace Sys2Proof.Machine

/-- Folding a whole number of groups, then more (R71). -/
theorem foldFrom_append : ∀ (s : Accum) (u v : List Word), u.length % 4 = 0 →
    foldFrom s (u ++ v) = foldFrom (foldFrom s u) v
  | s, [], v, _ => by simp [foldFrom]
  | s, [_], v, h => by simp at h
  | s, [_, _], v, h => by simp at h
  | s, [_, _, _], v, h => by simp at h
  | s, w0 :: w1 :: w2 :: w3 :: ws, v, h => by
    simp only [List.length_cons] at h
    simp only [List.cons_append, foldFrom]
    exact foldFrom_append _ ws v (by omega)

@[simp] theorem foldFrom_nil (s : Accum) : foldFrom s [] = s := rfl

@[simp] theorem length_groupWords (g : WordGroup) : (groupWords g).length = 4 := rfl

@[simp] theorem foldFrom_groupWords (s : Accum) (g : WordGroup) : foldFrom s (groupWords g) = upd4 s g := rfl

end Sys2Proof.Machine
end

