-- ==== Sys2Proof/Laws/Engine.lean ====
section
/-! SUPPORT. What the engine's operations do, whatever acts are armed: which fields they touch, and what memory will be when everything
has landed. -/

namespace Sys2Proof.Machine

/-! ### Which fields the engine touches -/

/-- `t` differs from `s` in data memory, its admission, the armed acts, what agents saw and the hidden state only. -/
def EngineOnly (s t : State) : Prop :=
  t = { s with mem := t.mem, holes := t.holes, rivals := t.rivals, observed := t.observed, engine := t.engine }

theorem EngineOnly.refl (s : State) : EngineOnly s s := rfl

theorem EngineOnly.trans {s t u : State} (h1 : EngineOnly s t) (h2 : EngineOnly t u) : EngineOnly s u := by
  unfold EngineOnly at *
  rw [h2, h1]

theorem engineOnly_setEngine (s : State) (e : Engine) : EngineOnly s (setEngine s e) := rfl

theorem EngineOnly.platform {s t : State} (h : EngineOnly s t) : t.platform = s.platform := by rw [h]
theorem EngineOnly.src {s t : State} (h : EngineOnly s t) : t.src = s.src := by rw [h]
theorem EngineOnly.dst {s t : State} (h : EngineOnly s t) : t.dst = s.dst := by rw [h]
theorem EngineOnly.len {s t : State} (h : EngineOnly s t) : t.len = s.len := by rw [h]

theorem engineOf_of_some {s : State} {e : Engine} (h : s.engine = some e) : engineOf s = e := by simp [engineOf, h]

theorem setEngine_self {s : State} {e : Engine} (h : s.engine = some e) : setEngine s e = s := by
  rw [setEngine, ← h]

/-! ### What an operation of the engine may do, with any acts armed -/

/-- Every write outstanding lies below `d`. -/
abbrev pendingBelow (d : Nat) (s : State) : Prop := ∀ x ∈ (engineOf s).pending, x.addr + 8 ≤ d

/-- From `s` to `t` the engine issued no write outside the addresses of `w`; so nothing else changed of what memory will hold when
everything has landed, and only armed acts changed what it admits. -/
structure Progress (w : Nat → Prop) (s t : State) : Prop where
  only : EngineOnly s t
  rivals : t.rivals ⊆ s.rivals
  wf : Memory.wf s.mem → Memory.wf t.mem
  holes : noRemap s.rivals → t.holes = s.holes
  pending : ∀ x ∈ (engineOf t).pending, x ∈ (engineOf s).pending ∨ ∀ k < 8, w (x.addr + k)
  frame : ∀ a, ¬ w a → Memory.byteAt (landed t).mem a = Memory.byteAt (landed s).mem a

theorem Progress.refl (w : Nat → Prop) (s : State) : Progress w s s :=
  ⟨EngineOnly.refl s, fun _ h => h, id, fun _ => rfl, fun _ h => .inl h, fun _ _ => rfl⟩

theorem Progress.trans {w : Nat → Prop} {s t u : State} (h1 : Progress w s t) (h2 : Progress w t u) : Progress w s u :=
  ⟨h1.only.trans h2.only, fun _ h => h1.rivals (h2.rivals h), fun h => h2.wf (h1.wf h),
    fun h => (h2.holes fun r hm => h r (h1.rivals hm)).trans (h1.holes h),
    fun x hx => (h2.pending x hx).elim (h1.pending x) .inr, fun a hw => (h2.frame a hw).trans (h1.frame a hw)⟩

theorem Progress.mono {w w' : Nat → Prop} {s t : State} (h : Progress w s t) (hw : ∀ a, w a → w' a) : Progress w' s t :=
  ⟨h.only, h.rivals, h.wf, h.holes, fun x hx => (h.pending x hx).imp_right fun h k hk => hw _ (h k hk),
    fun a hn => h.frame a fun hx => hn (hw a hx)⟩

/-- Writes outstanding stay below where the engine has come to. -/
theorem Progress.pendingBelow {w : Nat → Prop} {s t : State} {d d' : Nat} (h : Progress w s t) (hs : Machine.pendingBelow d s)
    (hd : d ≤ d') (hw : ∀ a, w a → a < d') : Machine.pendingBelow d' t := fun x hx => by
  rcases h.pending x hx with h | h
  · have := hs x h
    omega
  · have := hw _ (h 7 (by omega))
    omega

/-- A change of the hidden state that issues nothing. -/
theorem progress_setEngine (w : Nat → Prop) {s : State} {e : Engine} (h : e.pending = (engineOf s).pending) :
    Progress w s (setEngine s e) := by
  refine ⟨engineOnly_setEngine s e, fun _ h => h, id, fun _ => rfl, fun x hx => .inl ?_, fun a _ => ?_⟩
  · rw [engineOf_setEngine, h] at hx
    exact hx
  · rw [landed_mem, landed_mem, engineOf_setEngine, h]
    rfl

theorem progress_foldChunk (w : Nat → Prop) (s : State) : Progress w s (foldChunk s) := progress_setEngine w rfl

theorem progress_nextChunk (w : Nat → Prop) (g : Nat) (s : State) : Progress w s (nextChunk g s) := progress_setEngine w rfl

theorem progress_settle (w : Nat → Prop) (s : State) : Progress w s (settle s) :=
  ⟨rfl, fun _ => mem_of_mem_notDueBy, wf_memAfter _ _, fun h => holesAfter_eq_of_no_remap fun r hm => h r (mem_of_mem_dueBy hm),
    fun x hx => .inl (by rw [engineOf_settle] at hx; exact mem_of_mem_pendingAfter hx), fun _ _ => by rw [landed_settle]⟩

/-- The engine with one more write issued, and its access counted. -/
def issued (w : IssuedWrite) (e : Engine) : Engine := { e with pending := e.pending ++ [w], tick := e.tick + 1 }

theorem progress_issue (s : State) (x : IssuedWrite) :
    Progress (fun b => x.addr ≤ b ∧ b < x.addr + 8) s (setEngine s (issued x (engineOf s))) := by
  refine ⟨engineOnly_setEngine _ _, fun _ h => h, id, fun _ => rfl, fun y hy => ?_, fun a ha => ?_⟩
  · simp only [engineOf_setEngine, issued, List.mem_append, List.mem_singleton] at hy
    rcases hy with h | rfl
    · exact .inl h
    · exact .inr fun k hk => by omega
  · rw [landed_mem, landed_mem, engineOf_setEngine]
    exact (byteAt_landedMem_issue rfl _ (by omega) _).1

/-- Everything a read of the engine can do; where it stops is `fetchWord_follows`. -/
theorem fetchWord_next {a : Nat} {s t : State} (h : fetchWord a s = .next t) :
    Progress (fun _ => False) s t ∧
    ∃ v ws, engineOf t =
      { engineOf s with chunk := (engineOf s).chunk ++ [v], pending := ws, tick := (engineOf s).tick + 1 } := by
  simp only [fetchWord] at h
  split at h
  · cases h
    exact ⟨(progress_settle _ s).trans (progress_setEngine _ rfl), Memory.wordAt (settle s).mem a, (engineOf (settle s)).pending,
      by rw [engineOf_setEngine, engineOf_settle]⟩
  · cases h

/-- Everything a run of reads can do. -/
theorem fetchWords_next {n a : Nat} {s t : State} (h : fetchWords n a s = .next t) :
    Progress (fun _ => False) s t ∧
    ∃ (vs : List Word) (ws : List IssuedWrite), vs.length = n ∧ engineOf t =
      { engineOf s with chunk := (engineOf s).chunk ++ vs, pending := ws, tick := (engineOf s).tick + n } := by
  induction n generalizing a s with
  | zero =>
    cases h
    exact ⟨Progress.refl _ _, [], (engineOf t).pending, rfl, by simp⟩
  | succ n ih =>
    obtain ⟨u, hu, ht⟩ := andThen_eq_next h
    obtain ⟨hp, v, _, hv⟩ := fetchWord_next hu
    obtain ⟨hp', vs, ws, hl, hvs⟩ := ih ht
    refine ⟨hp.trans hp', v :: vs, ws, by simp [hl], ?_⟩
    rw [hvs, hv]
    simp
    omega

theorem storeWord_eq (a : Nat) (v : Word) (s : State) : storeWord a v s = memWrite a v s := by
  simp [storeWord, memWriteNT]

/-- Everything a write of the engine can do; if no armed act hits the word and no write outstanding does, it will hold the value. -/
theorem storeWord_next {a : Nat} {v : Word} {s t : State} (h : storeWord a v s = .next t) :
    Progress (fun b => a ≤ b ∧ b < a + 8) s t ∧
    (∃ ws, engineOf t = { engineOf s with pending := ws, tick := (engineOf s).tick + 1 }) ∧
    ((∀ k < 8, rivalsMiss s.rivals (a + k)) → pendingBelow a s → Memory.wordAt (landed t).mem a = v) := by
  rw [storeWord_eq] at h
  simp only [memWrite] at h
  split at h
  · cases h
    have hp := progress_settle (fun b => a ≤ b ∧ b < a + 8) s
    refine ⟨hp.trans (progress_issue (settle s) ⟨a, v⟩), ⟨(engineOf (settle s)).pending ++ [⟨a, v⟩], ?_⟩, fun hr hb => ?_⟩
    · rw [engineOf_setEngine, engineOf_settle]
    · have hr' : ∀ k < 8, rivalsMiss (settle s).rivals (a + k) := fun k hk r hm => hr k hk r (hp.rivals hm)
      have hb' : writesApart (engineOf (settle s)).pending a := fun x hx =>
        .inl (hb x (by rw [engineOf_settle] at hx; exact mem_of_mem_pendingAfter hx))
      rw [landed_mem, engineOf_setEngine, setEngine_mem, setEngine_rivals, landedMem_issue hr' hb']
      exact Memory.wordAt_writeWord_same _ a v
  · cases h

/-- Everything a run of writes can do; if no armed act hits the words and no write outstanding does, they will hold the values. -/
theorem storeWords_next {vs : List Word} {a : Nat} {s t : State} (h : storeWords vs a s = .next t) :
    Progress (fun b => a ≤ b ∧ b < a + 8 * vs.length) s t ∧
    (∃ ws, engineOf t = { engineOf s with pending := ws, tick := (engineOf s).tick + vs.length }) ∧
    ((∀ b, a ≤ b → b < a + 8 * vs.length → rivalsMiss s.rivals b) → pendingBelow a s →
      Memory.wordsAt (landed t).mem a vs.length = vs) := by
  induction vs generalizing a s with
  | nil =>
    cases h
    exact ⟨Progress.refl _ _, ⟨_, rfl⟩, fun _ _ => rfl⟩
  | cons v vs ih =>
    obtain ⟨u, hu, ht⟩ := andThen_eq_next h
    obtain ⟨hp, ⟨_, he⟩, hv⟩ := storeWord_next hu
    obtain ⟨hp', ⟨ws, he'⟩, hvs⟩ := ih ht
    refine ⟨?_, ⟨ws, ?_⟩, fun hr hb => ?_⟩
    · refine (hp.mono fun b hb => ?_).trans (hp'.mono fun b hb => ?_) <;> simp only [List.length_cons] <;> omega
    · rw [he', he]
      simp
      omega
    · simp only [List.length_cons] at hr ⊢
      have hb' := hp.pendingBelow hb (d' := a + 8) (by omega) fun b hx => hx.2
      rw [Memory.wordsAt_succ, hvs (fun b h1 h2 r hm => hr b (by omega) (by omega) r (hp.rivals hm)) hb',
        ← hv (fun k hk => hr (a + k) (by omega) (by omega)) hb]
      congr 1
      exact Memory.wordAt_congr fun k hk => hp'.frame _ (by omega)

/-- The bytes a pass may write: for a copy, `n` bytes of the destination from `d`. -/
abbrev passWrites (copy : Bool) (d n : Nat) (b : Nat) : Prop := copy = true ∧ d ≤ b ∧ b < d + n

/-- Everything a chunk can do: `vs` are the words read. -/
theorem runChunk_next {copy : Bool} {g : Nat} {s t : State} (hc : (engineOf s).chunk = [])
    (h : runChunk copy g s = .next t) :
    Progress (passWrites copy (s.dst.toNat + 32 * (engineOf s).pos) (32 * g)) s t ∧
    ∃ vs : List Word, vs.length = 4 * g ∧ (∃ k ws, engineOf t =
      { pos := (engineOf s).pos + g, chunk := [], pending := ws, sum := foldFrom (engineOf s).sum vs, tick := k }) ∧
      (copy = true →
        (∀ b, s.dst.toNat + 32 * (engineOf s).pos ≤ b → b < s.dst.toNat + 32 * (engineOf s).pos + 32 * g →
          rivalsMiss s.rivals b) → pendingBelow (s.dst.toNat + 32 * (engineOf s).pos) s →
        Memory.wordsAt (landed t).mem (s.dst.toNat + 32 * (engineOf s).pos) (4 * g) = vs) := by
  obtain ⟨s1, h1, h⟩ := andThen_eq_next h
  obtain ⟨s3, h3, h⟩ := andThen_eq_next h
  cases h
  obtain ⟨hp, vs, ws, hl, he⟩ := fetchWords_next h1
  rw [hc, List.nil_append] at he
  have hfold : engineOf (foldChunk s1) = { engineOf s with
      chunk := vs, pending := ws, sum := foldFrom (engineOf s).sum vs, tick := (engineOf s).tick + 4 * g } := by
    simp [foldChunk, he]
  have hp1 : Progress (fun _ => False) s (foldChunk s1) := hp.trans (progress_foldChunk _ _)
  cases copy with
  | false =>
    simp only [Bool.false_eq_true, if_false, Host.Outcome.next.injEq] at h3
    subst h3
    refine ⟨(hp1.trans (progress_nextChunk _ g _)).mono (by simp), vs, hl, ?_, by simp⟩
    exact ⟨(engineOf s).tick + 4 * g, ws, by rw [nextChunk, engineOf_setEngine, hfold]⟩
  | true =>
    simp only [if_true, hfold] at h3
    obtain ⟨hp3, ⟨ws', he3⟩, hw⟩ := storeWords_next h3
    rw [hl] at hw hp3
    rw [hfold] at he3
    refine ⟨?_, vs, hl, ⟨_, _, by rw [nextChunk, engineOf_setEngine, he3]⟩, fun _ hr hb => ?_⟩
    · refine ((hp1.mono (by simp)).trans (hp3.mono fun b hb => ?_)).trans (progress_nextChunk _ g _)
      exact ⟨rfl, hb.1, by omega⟩
    · rw [← hw (fun b h1 h2 r hm => hr b h1 (by omega) r (hp1.rivals hm))
        (hp1.pendingBelow hb (le_refl _) (by simp))]
      have hn : (landed (nextChunk g s3)).mem = (landed s3).mem := by
        rw [landed_mem, landed_mem, nextChunk, engineOf_setEngine]
        rfl
      rw [hn]

/-- Everything a run of chunks can do: `vs` are the words read, in buffer order. -/
theorem runChunks_next {copy : Bool} {gs : List Nat} {s t : State} (hc : (engineOf s).chunk = [])
    (h : runChunks copy gs s = .next t) :
    Progress (passWrites copy (s.dst.toNat + 32 * (engineOf s).pos) (32 * gs.sum)) s t ∧
    ∃ vs : List Word, vs.length = 4 * gs.sum ∧ (engineOf t).sum = foldFrom (engineOf s).sum vs ∧
      (copy = true →
        (∀ b, s.dst.toNat + 32 * (engineOf s).pos ≤ b → b < s.dst.toNat + 32 * (engineOf s).pos + 32 * gs.sum →
          rivalsMiss s.rivals b) → pendingBelow (s.dst.toNat + 32 * (engineOf s).pos) s →
        Memory.wordsAt (landed t).mem (s.dst.toNat + 32 * (engineOf s).pos) (4 * gs.sum) = vs) := by
  induction gs generalizing s with
  | nil =>
    cases h
    exact ⟨Progress.refl _ _, [], rfl, rfl, fun _ _ _ => rfl⟩
  | cons g gs ih =>
    obtain ⟨u, hu, ht⟩ := andThen_eq_next h
    obtain ⟨hp, vs, hl, ⟨k, ws, he⟩, hw⟩ := runChunk_next hc hu
    have hdst := hp.only.dst
    obtain ⟨hp', vs', hl', hf', hw'⟩ := ih (by rw [he]) ht
    simp only [he, hdst] at hp' hf' hw'
    simp only [List.sum_cons]
    refine ⟨?_, vs ++ vs', by simp [hl, hl']; omega, ?_, fun hcp hr hb => ?_⟩
    · refine (hp.mono fun b hb => ?_).trans (hp'.mono fun b hb => ?_)
      · exact ⟨hb.1, hb.2.1, by omega⟩
      · exact ⟨hb.1, by omega, by omega⟩
    · rw [hf', foldFrom_append _ _ _ (by omega)]
    · rw [Nat.mul_add, Memory.wordsAt_add]
      congr 1
      · rw [← hw hcp (fun b h1 h2 => hr b h1 (by omega)) hb]
        refine Memory.wordsAt_congr fun b h1 h2 => hp'.frame b ?_
        rintro ⟨-, h3, h4⟩
        omega
      · rw [show s.dst.toNat + 32 * (engineOf s).pos + 8 * (4 * g) = s.dst.toNat + 32 * ((engineOf s).pos + g) by omega]
        refine hw' hcp (fun b h1 h2 r hm => hr b (by omega) (by omega) r (hp.rivals hm)) ?_
        exact hp.pendingBelow hb (by omega) fun b hx => by omega

/-! ### A whole pass -/

theorem sum_chunksOf (c : ChunkWords) (g : Nat) : (chunksOf c g).sum = g := by
  cases c with
  | four => simp [chunksOf]
  | eight =>
    simp [chunksOf]
    omega

/-- A pass whose checks fail (R115, R119). -/
theorem streamPass_fail {copy : Bool} {s : State} {code : FailCode} (h : entryCheck copy s = some code) :
    streamPass copy s = .next (raiseFail code s) := by
  simp [streamPass, h]

/-- Where the checks pass, LEN is a whole number of groups below the limit (R56). -/
theorem entryCheck_none {copy : Bool} {s : State} (h : entryCheck copy s = none) :
    wordCount s.len = 4 * (wordCount s.len / 4) ∧ s.len.toNat = 8 * wordCount s.len ∧ s.len.toNat < 2 ^ 22 ∧
    (copy = true → s.src.toNat + s.len.toNat ≤ s.dst.toNat ∨ s.dst.toNat + s.len.toNat ≤ s.src.toNat ∨ s.len.toNat = 0) := by
  have hw := wordCount_eq s.len
  cases copy with
  | false =>
    obtain ⟨h1, h2, -⟩ := csumCheck_eq_none.1 h
    exact ⟨by omega, by omega, h1, by simp⟩
  | true =>
    obtain ⟨h1, h2, -, -, -, -, h7⟩ := copyCheck_eq_none.1 h
    exact ⟨by omega, by omega, h1, fun _ => by omega⟩

/-- Everything a pass can answer with a next state: it failed at entry, or it ran to its end over the words `vs`. -/
theorem streamPass_next {copy : Bool} {s t : State} (h : streamPass copy s = .next t) :
    (∃ code, entryCheck copy s = some code ∧ t = raiseFail code s) ∨
    (entryCheck copy s = none ∧ passCoversBlock copy s = false ∧
      (Memory.wf s.mem → Memory.wf t.mem) ∧ (noRemap s.rivals → t.holes = s.holes) ∧
      (∀ a, rivalsMiss s.rivals a → ¬ passWrites copy s.dst.toNat s.len.toNat a →
        Memory.byteAt t.mem a = Memory.byteAt s.mem a) ∧
      ∃ vs : List Word, vs.length = wordCount s.len ∧
        t = { s with mem := t.mem, holes := t.holes, rivals := [], observed := t.observed, acc := fold vs, out := fold vs,
                     cnt := BitVec.ofNat 19 (wordCount s.len), status := okStatus s.status, engine := none } ∧
        (copy = true → (∀ b, s.dst.toNat ≤ b → b < s.dst.toNat + s.len.toNat → rivalsMiss s.rivals b) →
          Memory.wordsAt t.mem s.dst.toNat (wordCount s.len) = vs)) := by
  cases hc : entryCheck copy s with
  | some code => exact .inl ⟨code, rfl, by simpa [streamPass, hc] using h.symm⟩
  | none =>
    right
    obtain ⟨h4, h8, -, hd⟩ := entryCheck_none hc
    have hs := sum_chunksOf s.platform.chunkWords (wordCount s.len / 4)
    simp only [streamPass, hc] at h
    split at h
    · cases h
    · rename_i hn
      obtain ⟨u, hu, ht⟩ := andThen_eq_next h
      cases ht
      obtain ⟨hp, vs, hl, he, hw⟩ := runChunks_next (s := setEngine s freshEngine) rfl hu
      simp only [hs, setEngine_dst, setEngine_rivals, engineOf_setEngine, freshEngine,
        Nat.mul_zero, Nat.add_zero, ← h4] at hp hl he hw
      have hl' : (finishPass u).mem = (landed u).mem := rfl
      have hstart : (landed (setEngine s freshEngine)).mem = landedMem s.mem [] s.rivals := landed_mem _
      refine ⟨rfl, by simpa using hn, fun hwf => ?_,
        fun h => (holesAfter_eq_of_no_remap fun r hm => h r (hp.rivals hm)).trans (hp.holes h), fun a hr hnw => ?_, vs, hl, ?_,
        fun hcp hr => ?_⟩
      · rw [hl', landed_mem]
        exact wf_landedMem _ _ (hp.wf hwf)
      · rw [hl', hp.frame a fun ⟨x, y, z⟩ => hnw ⟨x, y, by omega⟩]
        show Memory.byteAt (landed (setEngine s freshEngine)).mem a = _
        rw [hstart]
        exact byteAt_landedMem hr fun _ h => absurd h List.not_mem_nil
      · have ho := hp.only
        unfold EngineOnly at ho
        have he' : (engineOf u).sum = fold vs := he
        simp only [finishPass, drainWrites, settleAll, settleWith, succeed, he']
        rw [ho]
        rfl
      · rw [hl']
        exact hw hcp (fun b h1 h2 => hr b h1 (by omega)) fun _ h => absurd h List.not_mem_nil

end Sys2Proof.Machine
end

