-- ==== Sys2Proof/Laws/Exec.lean ====
section
/-! SUPPORT. What a command and an event can do, said once: the passes over memory, every next state of exec, and what each
event comes to. -/

namespace Sys2Proof.Machine

/-- Each command that makes a pass over memory is that pass, whatever the platform (R44, R101, R102). -/
theorem exec_pass {i : Instr} {copy : Bool} (h : passOf i = some copy) (s : State) : exec i s = streamPass copy s := by
  cases i <;> simp only [passOf, Option.some.injEq, reduceCtorEq] at h <;> subst h
  · rfl
  · rfl
  · show copyCommon (if s.platform.hasWarm then s else s) = copyCommon s
    simp
  · show (if s.platform.hasVector then copyCommon s else copyCommon s) = copyCommon s
    simp

theorem passOf_copy {i : Instr} (h : i ∈ [Instr.copyB, .copyW, .copyF]) : passOf i = some true := by
  simp only [List.mem_cons, List.not_mem_nil, or_false] at h
  rcases h with rfl | rfl | rfl <;> rfl

/-- A pass that completes, as `streamPass_next` says it. -/
theorem exec_pass_next {i : Instr} {copy : Bool} {s t : State} (hp : passOf i = some copy) (hc : entryCheck copy s = none)
    (h : exec i s = .next t) :
    (Memory.wf s.mem → Memory.wf t.mem) ∧ (noRemap s.rivals → t.holes = s.holes) ∧
    (∀ a, rivalsMiss s.rivals a → ¬ passWrites copy s.dst.toNat s.len.toNat a →
      Memory.byteAt t.mem a = Memory.byteAt s.mem a) ∧
    ∃ vs : List Word, vs.length = wordCount s.len ∧
      t = { s with mem := t.mem, holes := t.holes, rivals := [], observed := t.observed, acc := fold vs, out := fold vs,
                   cnt := BitVec.ofNat 19 (wordCount s.len), status := okStatus s.status, engine := none } := by
  rw [exec_pass hp] at h
  rcases streamPass_next h with ⟨code, h1, -⟩ | ⟨-, -, hw, hm, hf, vs, hl, ht, -⟩
  · rw [hc] at h1
    cases h1
  · exact ⟨hw, hm, hf, vs, hl, ht⟩

/-- Every next state a command can answer: a failure, a pass that passed its checks, or the one effect of its kind. -/
theorem exec_next {i : Instr} {s t : State} (h : exec i s = .next t) :
    (∃ code, t = raiseFail code s ∧
      (i = .accUpd ∧ streamFull s.cnt = true ∨ ∃ copy, passOf i = some copy ∧ entryCheck copy s = some code)) ∨
    (∃ copy, passOf i = some copy ∧ entryCheck copy s = none) ∨
    (i = .accInit ∧ t = succeed { s with acc := Accum.ident, cnt := 0 }) ∨
    (i = .accUpd ∧ streamFull s.cnt = false ∧ t = succeed { s with acc := upd4 s.acc s.w, cnt := s.cnt + 4 }) ∨
    (i = .accPut ∧ t = succeed { s with out := s.acc }) ∨
    (i = .accCmpeq ∧ t = succeed { s with status := eqFlag s.out s.ref s.status }) ∨
    (i = .renderOut ∧ t = renderInto s.out s) ∨ (i = .renderRef ∧ t = renderInto s.ref s) ∨
    (i = .renderAcc ∧ t = renderInto s.acc s) := by
  cases hi : passOf i with
  | some copy =>
    rw [exec_pass hi] at h
    rcases streamPass_next h with ⟨code, h1, h2⟩ | ⟨h1, -⟩
    · exact .inl ⟨code, h2, .inr ⟨copy, rfl, h1⟩⟩
    · exact .inr (.inl ⟨copy, rfl, h1⟩)
  | none =>
    cases i <;> simp only [passOf, reduceCtorEq] at hi
    case accUpd =>
      simp only [exec, execAccUpd] at h
      split at h <;> cases h
      · exact .inl ⟨_, rfl, .inl ⟨rfl, by assumption⟩⟩
      · simp_all
    all_goals
      cases h
      simp

/-! ### Events -/

theorem issue_eq (ev : Event) (s : State) : issue ev s = handle ev s := rfl

theorem issue_cmd (s : State) (data : Word) : issue (wr 0x00 data) s = runCommandWord (commandWordOf data) s := rfl

/-- Everything a write to CMD can do: the command's effect, or ILLEGAL_COMMAND (R114). -/
theorem runCommandWord_next {cw : CommandWord} {s t : State} (h : runCommandWord cw s = .next t) :
    (∃ i, decode cw = .ok i ∧ exec i s = .next t) ∨
    ((∃ e, decode cw = .error e) ∧ t = raiseFail .illegalCommand s) := by
  rw [runCommandWord] at h
  split at h
  · exact .inl ⟨_, by assumption, h⟩
  · cases h
    exact .inr ⟨⟨_, by assumption⟩, rfl⟩

theorem decode_command (i : Instr) : decode (commandWordOf ((encode i).setWidth 64)) = .ok i := by
  cases i <;> decide

/-- Issuing a command as R63 writes it runs it. -/
theorem issue_command (i : Instr) (s : State) : issue (command i) s = exec i s := by
  rw [command, issue_cmd, runCommandWord, decode_command]

theorem runEvents_append (es fs : List Event) (s : State) :
    runEvents (es ++ fs) s = andThen (runEvents es s) (runEvents fs) := by
  induction es generalizing s with
  | nil => rfl
  | cons e es ih =>
    simp only [List.cons_append, runEvents]
    cases issue e s with
    | next t => exact ih t
    | fault r => rfl
    | refused r => rfl

end Sys2Proof.Machine
end

