-- ==== Sys2Proof/Laws/Issued.lean ====
section
/-! SUPPORT. A run of consecutive writes outstanding together, and what a copy leaves outstanding while nothing armed is due: all
its writes, which data memory may then perform in any order (R45). -/

namespace Sys2Proof.Machine

/-- Writes of consecutive words, issued in ascending order. -/
def issuedFrom : Nat → List Word → List IssuedWrite
  | _, [] => []
  | a, v :: vs => { addr := a, value := v } :: issuedFrom (a + 8) vs

theorem issuedFrom_append (a : Nat) (us vs : List Word) :
    issuedFrom a (us ++ vs) = issuedFrom a us ++ issuedFrom (a + 8 * us.length) vs := by
  induction us generalizing a with
  | nil => rfl
  | cons u us ih =>
    simp only [List.cons_append, issuedFrom, ih, List.length_cons]
    rw [show a + 8 + 8 * us.length = a + 8 * (us.length + 1) by omega]

theorem addr_of_mem_issuedFrom {w : IssuedWrite} {a : Nat} {vs : List Word} (h : w ∈ issuedFrom a vs) :
    ∃ i < vs.length, w.addr = a + 8 * i := by
  induction vs generalizing a with
  | nil => cases h
  | cons v vs ih =>
    rcases List.mem_cons.1 h with rfl | h
    · exact ⟨0, by simp, rfl⟩
    · obtain ⟨i, hi, hw⟩ := ih h
      exact ⟨i + 1, by simp [hi], by omega⟩

/-- Each word of the run is written once. -/
theorem issuedTo_issuedFrom {addr : Word} {a j : Nat} {v : Word} {vs : List Word} (hv : vs[j]? = some v)
    (ha : addr.toNat = a + 8 * j) : issuedTo addr (issuedFrom a vs) = [{ addr := addr.toNat, value := v }] := by
  induction vs generalizing a j with
  | nil => simp at hv
  | cons u vs ih =>
    cases j with
    | zero =>
      obtain rfl : u = v := by simpa using hv
      have hn : issuedTo addr (issuedFrom (a + 8) vs) = [] := by
        refine List.filter_eq_nil_iff.2 fun w hw => ?_
        obtain ⟨i, -, hi⟩ := addr_of_mem_issuedFrom hw
        simp only [decide_eq_true_eq]
        omega
      simpa [issuedFrom, issuedTo, ha] using hn
    | succ j =>
      have hne : ¬ a = addr.toNat := by omega
      simpa [issuedFrom, issuedTo, hne] using ih (by simpa using hv) (by omega : addr.toNat = a + 8 + 8 * j)

/-- However the acts interleave with the run's writes, the run lands if no act writes a byte. -/
theorem landedMem_issuedFrom {rs : List Rival} (h : ∀ b, rivalsMiss rs b) (m : List Host.Cell) (a : Nat) (vs : List Word) :
    landedMem m (issuedFrom a vs) rs = Memory.writeWords (landedMem m [] rs) a vs := by
  induction vs using List.reverseRecOn with
  | nil => rfl
  | append_singleton vs v ih =>
    rw [issuedFrom_append, Memory.writeWords_append, ← ih]
    refine landedMem_issue (fun k _ => h _) (fun w hw => ?_) m v
    obtain ⟨i, hi, ha⟩ := addr_of_mem_issuedFrom hw
    omega

/-! ### While nothing armed is due -/

/-- Nothing armed is due at the accesses numbered below `bound`. -/
abbrev noneDueBelow (bound : Nat) (rs : List Rival) : Prop := ∀ tick < bound, dueBy tick rs = []

theorem settle_of_noneDue {bound : Nat} {s : State} (h : noneDueBelow bound s.rivals) (ht : (engineOf s).tick < bound) :
    settle s = s := by
  have hd := h _ ht
  have hn : notDueBy (engineOf s).tick s.rivals = s.rivals := by
    simpa [hd] using dueBy_append_notDueBy (engineOf s).tick s.rivals
  rw [settle, hd, hn]
  obtain ⟨e, he⟩ : ∃ e, s.engine = e := ⟨_, rfl⟩
  cases s
  cases e <;> simp_all [settleWith, withPending, engineOf]

/-- Reads put the words into the chunk and change nothing else. -/
theorem fetchWords_of_noneDue {bound n a : Nat} {s : State} (h : noneDueBelow bound s.rivals)
    (hb : (engineOf s).tick + n ≤ bound) (ha : ∀ i < n, admits .read s.holes (a + 8 * i) = true) (he : s.engine ≠ none) :
    fetchWords n a s = .next (setEngine s { engineOf s with
      chunk := (engineOf s).chunk ++ Memory.wordsAt s.mem a n, tick := (engineOf s).tick + n }) := by
  induction n generalizing a s with
  | zero =>
    obtain ⟨e, h⟩ := Option.ne_none_iff_exists'.1 he
    simp [fetchWords, engineOf_of_some h, setEngine_self h]
  | succ n ih =>
    have h0 : admits .read s.holes a = true := ha 0 (by omega)
    rw [fetchWords, fetchWord, settle_of_noneDue h (by omega)]
    simp only [h0, if_true, andThen_next]
    rw [ih (by exact h) (by simp; omega) (fun i hi => by simpa [Nat.mul_add, Nat.add_assoc, Nat.add_comm 8] using ha (i + 1) (by omega))
      (by simp)]
    simp [Memory.wordsAt_succ, Nat.add_assoc, Nat.add_comm 1 n]

/-- Writes become outstanding and change nothing else. -/
theorem storeWords_of_noneDue {bound a : Nat} {vs : List Word} {s : State} (h : noneDueBelow bound s.rivals)
    (hb : (engineOf s).tick + vs.length ≤ bound) (ha : ∀ i < vs.length, admits .write s.holes (a + 8 * i) = true)
    (he : s.engine ≠ none) :
    storeWords vs a s = .next (setEngine s { engineOf s with
      pending := (engineOf s).pending ++ issuedFrom a vs, tick := (engineOf s).tick + vs.length }) := by
  induction vs generalizing a s with
  | nil =>
    obtain ⟨e, h⟩ := Option.ne_none_iff_exists'.1 he
    simp [storeWords, issuedFrom, engineOf_of_some h, setEngine_self h]
  | cons v vs ih =>
    have h0 : admits .write s.holes a = true := ha 0 (by simp)
    simp only [List.length_cons] at hb
    rw [storeWords, storeWord_eq, memWrite, settle_of_noneDue h (by omega)]
    simp only [h0, if_true, andThen_next]
    rw [ih (by exact h) (by simp; omega)
      (fun i hi => by simpa [Nat.mul_add, Nat.add_assoc, Nat.add_comm 8] using ha (i + 1) (by simpa using hi)) (by simp)]
    simp [issuedFrom, Nat.add_assoc, Nat.add_comm 1]

/-- The hidden state after one chunk of a copy with nothing due. -/
theorem runChunk_of_noneDue {bound g : Nat} {s : State} (hc : (engineOf s).chunk = []) (h : noneDueBelow bound s.rivals)
    (hb : (engineOf s).tick + 8 * g ≤ bound)
    (hr : bufferAdmitted .read s.holes (s.src.toNat + 32 * (engineOf s).pos) (4 * g))
    (hw : bufferAdmitted .write s.holes (s.dst.toNat + 32 * (engineOf s).pos) (4 * g)) (he : s.engine ≠ none) :
    ∃ e, runChunk true g s = .next (setEngine s e) ∧ e.pos = (engineOf s).pos + g ∧ e.chunk = [] ∧
      e.tick = (engineOf s).tick + 8 * g ∧ e.pending = (engineOf s).pending ++
        issuedFrom (s.dst.toNat + 32 * (engineOf s).pos) (Memory.wordsAt s.mem (s.src.toNat + 32 * (engineOf s).pos) (4 * g)) := by
  generalize hv : Memory.wordsAt s.mem (s.src.toNat + 32 * (engineOf s).pos) (4 * g) = vs
  have hl : vs.length = 4 * g := hv ▸ Memory.length_wordsAt ..
  have hs := storeWords_of_noneDue (vs := vs) (a := s.dst.toNat + 32 * (engineOf s).pos)
    (s := setEngine s { engineOf s with chunk := vs, sum := foldFrom (engineOf s).sum vs, tick := (engineOf s).tick + 4 * g })
    h (by simp only [engineOf_setEngine]; omega) (fun i hi => hw i (by omega)) (by simp [setEngine])
  simp only [engineOf_setEngine, setEngine_setEngine] at hs
  simp only [runChunk, fetchWords_of_noneDue h (by omega : _ + 4 * g ≤ bound) hr he, hv, andThen_next, foldChunk,
    engineOf_setEngine, setEngine_setEngine, hc, List.nil_append, if_true]
  rw [hs]
  simp only [andThen_next, nextChunk, engineOf_setEngine, setEngine_setEngine, hl]
  exact ⟨_, rfl, rfl, rfl, by simp only; omega, rfl⟩

/-- After the chunks of a copy with nothing due, every write of it is outstanding. -/
theorem runChunks_of_noneDue {bound : Nat} {gs : List Nat} {s : State} (hc : (engineOf s).chunk = [])
    (h : noneDueBelow bound s.rivals) (hb : (engineOf s).tick + 8 * gs.sum ≤ bound)
    (hr : bufferAdmitted .read s.holes (s.src.toNat + 32 * (engineOf s).pos) (4 * gs.sum))
    (hw : bufferAdmitted .write s.holes (s.dst.toNat + 32 * (engineOf s).pos) (4 * gs.sum)) (he : s.engine ≠ none) :
    ∃ e, runChunks true gs s = .next (setEngine s e) ∧ e.pending = (engineOf s).pending ++
      issuedFrom (s.dst.toNat + 32 * (engineOf s).pos) (Memory.wordsAt s.mem (s.src.toNat + 32 * (engineOf s).pos) (4 * gs.sum)) := by
  induction gs generalizing s with
  | nil =>
    obtain ⟨e, h⟩ := Option.ne_none_iff_exists'.1 he
    exact ⟨e, by rw [runChunks, setEngine_self h], by simp [issuedFrom, engineOf_of_some h]⟩
  | cons g gs ih =>
    simp only [List.sum_cons] at hb hr hw ⊢
    have hnext : ∀ b : Nat, b + 32 * ((engineOf s).pos + g) = b + 32 * (engineOf s).pos + 8 * (4 * g) := fun b => by omega
    have hlater : ∀ {kind : AccessKind} {b : Nat}, bufferAdmitted kind s.holes (b + 32 * (engineOf s).pos) (4 * (g + gs.sum)) →
        bufferAdmitted kind s.holes (b + 32 * ((engineOf s).pos + g)) (4 * gs.sum) := fun hk i hi => by
      rw [hnext, Nat.add_assoc, ← Nat.mul_add]
      exact hk _ (by omega)
    obtain ⟨e1, hrun, hpos, hchunk, htick, hpend⟩ :=
      runChunk_of_noneDue (g := g) hc h (by omega) (fun i hi => hr i (by omega)) (fun i hi => hw i (by omega)) he
    rw [runChunks, hrun, andThen_next]
    obtain ⟨e, h1, h2⟩ := ih (s := setEngine s e1) hchunk h (by rw [engineOf_setEngine, htick]; omega)
      (by rw [engineOf_setEngine, hpos]; exact hlater hr) (by rw [engineOf_setEngine, hpos]; exact hlater hw) (by simp)
    refine ⟨e, h1, h2.trans ?_⟩
    rw [show 4 * (g + gs.sum) = 4 * g + 4 * gs.sum by omega, Memory.wordsAt_add, issuedFrom_append, Memory.length_wordsAt,
      ← List.append_assoc]
    simp only [engineOf_setEngine, setEngine_src, setEngine_dst, setEngine_mem, hpos, hpend, hnext]

end Sys2Proof.Machine
end

