-- ==== Sys2Proof/Laws/PerInstr.lean ====
section
/-! SUPPORT. Per command: its fields are well formed (R59), its encoding decodes to it (R58, R62), and the eight-byte write
that presents it does too (R17 (b)). -/

namespace Sys2Proof.Laws.EncodeDecode

/-- What is shown of each command as syntax. -/
def Statement (i : Instr) : Prop :=
  i.wellFormed = true ∧ decode (encode i) = .ok i ∧ decodeTableWord 32 (encode i).toNat = some i

theorem accInit : Statement .accInit := by
  unfold Statement
  decide

theorem accUpd : Statement .accUpd := by
  unfold Statement
  decide

theorem accPut : Statement .accPut := by
  unfold Statement
  decide

theorem accCmpeq : Statement .accCmpeq := by
  unfold Statement
  decide

theorem renderOut : Statement .renderOut := by
  unfold Statement
  decide

theorem renderRef : Statement .renderRef := by
  unfold Statement
  decide

theorem renderAcc : Statement .renderAcc := by
  unfold Statement
  decide

theorem csum : Statement .csum := by
  unfold Statement
  decide

theorem copyB : Statement .copyB := by
  unfold Statement
  decide

theorem copyW : Statement .copyW := by
  unfold Statement
  decide

theorem copyF : Statement .copyF := by
  unfold Statement
  decide

end Sys2Proof.Laws.EncodeDecode
end

