-- ==== Sys2Proof/Laws/Spared.lean ====
section
/-! SUPPORT. The exact result of a pass for which the host keeps R48, whatever other agents do outside its buffers and in whatever
order data memory performs the writes issued: each operation of the engine does to the landed state what it would do to a state
with nothing armed and nothing outstanding. -/

namespace Sys2Proof.Machine

/-- An access at `a` is admitted now and under every mapping armed, no armed act writes a byte of its word, and none reads one
that the access writes. -/
structure Clear (kind : AccessKind) (a : Nat) (s : State) : Prop where
  admitted : admits kind s.holes a = true
  remaps : ∀ r ∈ s.rivals, ∀ holes ∈ actRemaps r.act, admits kind holes a = true
  miss : ∀ k < 8, rivalsMiss s.rivals (a + k)
  blind : kind = .write → ∀ k < 8, rivalsBlind s.rivals (a + k)

theorem Clear.settle {kind : AccessKind} {a : Nat} {s : State} (h : Clear kind a s) : Clear kind a (settle s) :=
  ⟨admits_holesAfter h.admitted fun r hr => h.remaps r (mem_of_mem_dueBy hr),
    fun r hr => h.remaps r (mem_of_mem_notDueBy hr), fun k hk r hr => h.miss k hk r (mem_of_mem_notDueBy hr),
    fun hw k hk r hr => h.blind hw k hk r (mem_of_mem_notDueBy hr)⟩

/-- Clear accesses do not depend on the hidden state. -/
theorem Clear.setEngine {kind : AccessKind} {a : Nat} {s : State} (h : Clear kind a s) (e : Engine) :
    Clear kind a (setEngine s e) := ⟨h.admitted, h.remaps, h.miss, h.blind⟩

/-- Only a copy has writes outstanding, and they lie from `lo` on and below `hi`. -/
abbrev pendingIn (copy : Bool) (lo hi : Nat) (s : State) : Prop :=
  ∀ x ∈ (engineOf s).pending, copy = true ∧ lo ≤ x.addr ∧ x.addr + 8 ≤ hi

/-- An operation completes; where everything has landed it did `f`; the engine still runs, and clear accesses stay clear. -/
def Does (f : State → State) (s : State) (o : StepResult) : Prop :=
  ∃ t, o = .next t ∧ landed t = f (landed s) ∧ t.engine ≠ none ∧ ∀ kind a, Clear kind a s → Clear kind a t

theorem landed_setEngine {s : State} {e : Engine} (h : e.pending = (engineOf s).pending) :
    landed (setEngine s e) = setEngine (landed s) { e with pending := [] } := by
  rw [landed_eq, landed_eq, engineOf_setEngine, h]
  rfl

/-- What reading `n` words from `a` on comes to. -/
def didFetch (a n : Nat) (s : State) : State :=
  setEngine s { engineOf s with
    chunk := (engineOf s).chunk ++ Memory.wordsAt s.mem a n, tick := (engineOf s).tick + n }

/-- What writing words from `a` on comes to. -/
def didStore (a : Nat) (vs : List Word) (s : State) : State :=
  setEngine { s with mem := Memory.writeWords s.mem a vs } { engineOf s with tick := (engineOf s).tick + vs.length }

theorem fetchWord_does {a : Nat} {s : State} (h : Clear .read a s) (hp : writesApart (engineOf s).pending a) :
    Does (didFetch a 1) s (fetchWord a s) := by
  refine ⟨setEngine (settle s) { engineOf (settle s) with
      chunk := (engineOf (settle s)).chunk ++ [Memory.wordAt (settle s).mem a], tick := (engineOf (settle s)).tick + 1 },
    by simp only [fetchWord, h.settle.admitted, if_true], ?_, by simp, fun kind b hb => hb.settle.setEngine _⟩
  have hmem : Memory.wordAt (settle s).mem a = Memory.wordAt (landed s).mem a := by
    rw [← landed_settle]
    refine Memory.wordAt_congr fun k hk => ?_
    rw [landed_mem, byteAt_landedMem (h.settle.miss k hk) fun x hx => ?_]
    have := hp x (by rw [engineOf_settle] at hx; exact mem_of_mem_pendingAfter hx)
    omega
  refine (landed_setEngine (by rfl)).trans ?_
  rw [landed_settle, engineOf_settle, hmem, didFetch, engineOf_landed]
  rfl

theorem fetchWords_does {n a : Nat} {s : State} (h : ∀ i < n, Clear .read (a + 8 * i) s)
    (hp : ∀ i < n, writesApart (engineOf s).pending (a + 8 * i)) (he : s.engine ≠ none) :
    Does (didFetch a n) s (fetchWords n a s) := by
  induction n generalizing a s with
  | zero =>
    obtain ⟨e, hs⟩ := Option.ne_none_iff_exists'.1 he
    refine ⟨s, rfl, ?_, he, fun _ _ h => h⟩
    have : (landed s).engine = some { e with pending := [] } := by rw [landed_eq, hs]; rfl
    simp [didFetch, engineOf_of_some this, setEngine_self this]
  | succ n ih =>
    obtain ⟨t, ht, hl, het, hc⟩ := fetchWord_does (h 0 (by omega)) (hp 0 (by omega))
    have hpr := (fetchWord_next ht).1
    obtain ⟨u, hu, hl', heu, hc'⟩ := ih (a := a + 8) (s := t)
      (fun i hi => by
        have := hc _ _ (h (i + 1) (by omega))
        rw [show a + 8 * (i + 1) = a + 8 + 8 * i by omega] at this
        exact this)
      (fun i hi x hx => by
        have := hp (i + 1) (by omega) x ((hpr.pending x hx).resolve_right fun h => h 0 (by omega))
        omega)
      het
    refine ⟨u, by rw [fetchWords, show fetchWord a s = .next t from ht]; exact hu, ?_, heu, fun kind b hb => hc' kind b (hc kind b hb)⟩
    rw [hl', show landed t = didFetch a 1 (landed s) from hl]
    simp [didFetch, Memory.wordsAt_succ, Nat.add_assoc, Nat.add_comm 1 n]

theorem storeWord_does {a : Nat} {v : Word} {s : State} (h : Clear .write a s) (hp : writesApart (engineOf s).pending a) :
    Does (didStore a [v]) s (storeWord a v s) := by
  refine ⟨setEngine (settle s) (issued ⟨a, v⟩ (engineOf (settle s))),
    by simp only [storeWord_eq, memWrite, h.settle.admitted, if_true, issued], ?_, by simp, fun kind b hb => hb.settle.setEngine _⟩
  have hp' : writesApart (engineOf (settle s)).pending a := fun x hx =>
    hp x (by rw [engineOf_settle] at hx; exact mem_of_mem_pendingAfter hx)
  rw [landed_eq, engineOf_setEngine, issued]
  simp only [setEngine_mem, setEngine_rivals, setEngine_holes, setEngine_observed]
  rw [landedMem_issue h.settle.miss hp', seenBy_issue h.settle.miss (h.settle.blind rfl) hp', didStore, ← landed_settle s,
    engineOf_landed, landed_eq]
  rfl

theorem storeWords_does {vs : List Word} {a : Nat} {s : State} (h : ∀ i < vs.length, Clear .write (a + 8 * i) s)
    (hp : pendingBelow a s) (he : s.engine ≠ none) : Does (didStore a vs) s (storeWords vs a s) := by
  induction vs generalizing a s with
  | nil =>
    obtain ⟨e, hs⟩ := Option.ne_none_iff_exists'.1 he
    refine ⟨s, rfl, ?_, he, fun _ _ h => h⟩
    have : (landed s).engine = some { e with pending := [] } := by rw [landed_eq, hs]; rfl
    simp [didStore, Memory.writeWords, engineOf_of_some this, setEngine_self this]
  | cons v vs ih =>
    obtain ⟨t, ht, hl, het, hc⟩ := storeWord_does (v := v) (h 0 (by simp)) fun x hx => .inl (hp x hx)
    have ht' : storeWord a v s = .next t := ht
    obtain ⟨u, hu, hl', heu, hc'⟩ := ih (a := a + 8) (s := t)
      (fun i hi => by
        have := hc _ _ (h (i + 1) (by simp; omega))
        rw [show a + 8 * (i + 1) = a + 8 + 8 * i by omega] at this
        exact this)
      ((storeWord_next ht').1.pendingBelow hp (by omega) fun b hb => hb.2)
      het
    refine ⟨u, by rw [storeWords, ht']; exact hu, ?_, heu, fun kind b hb => hc' kind b (hc kind b hb)⟩
    rw [hl', show landed t = didStore a [v] (landed s) from hl]
    simp [didStore, Memory.writeWords, setEngine, engineOf]
    omega

/-- Data memory after a pass over the words `vs`: a copy writes them from `d` on, CSUM writes nothing. -/
def passMem (copy : Bool) (m : List Host.Cell) (d : Nat) (vs : List Word) : List Host.Cell :=
  if copy then Memory.writeWords m d vs else m

/-- What chunks of `n` groups in all, from `S` to `D`, come to; `k` accesses have then been made. -/
def didChunks (copy : Bool) (n S D k : Nat) (s : State) : State :=
  setEngine { s with mem := passMem copy s.mem D (Memory.wordsAt s.mem S (4 * n)) }
    { pos := (engineOf s).pos + n, chunk := [], pending := [],
      sum := foldFrom (engineOf s).sum (Memory.wordsAt s.mem S (4 * n)), tick := k }

theorem landed_foldChunk (s : State) : landed (foldChunk s) =
    setEngine (landed s) { engineOf s with pending := [], sum := foldFrom (engineOf s).sum (engineOf s).chunk } :=
  landed_setEngine rfl

theorem landed_nextChunk (g : Nat) (s : State) : landed (nextChunk g s) =
    setEngine (landed s) { engineOf s with pos := (engineOf s).pos + g, chunk := [], pending := [] } := landed_setEngine rfl

theorem runChunk_does {copy : Bool} {g S D D0 : Nat} {s : State} (hc : (engineOf s).chunk = []) (he : s.engine ≠ none)
    (hS : S = s.src.toNat + 32 * (engineOf s).pos) (hD : D = s.dst.toNat + 32 * (engineOf s).pos)
    (ha : ∀ i < 4 * g, Clear .read (S + 8 * i) s) (hb : copy = true → ∀ i < 4 * g, Clear .write (D + 8 * i) s)
    (hin : pendingIn copy D0 D s) (hd : copy = true → S + 32 * g ≤ D0 ∨ D ≤ S ∨ g = 0) :
    ∃ k, Does (didChunks copy g S D k) s (runChunk copy g s) := by
  subst hS hD
  have hsrc : ∀ i < 4 * g, writesApart (engineOf s).pending (s.src.toNat + 32 * (engineOf s).pos + 8 * i) := fun i hi x hx => by
    obtain ⟨hcp, h1, h2⟩ := hin x hx
    have := hd hcp
    omega
  obtain ⟨s1, h1, hl1, -, hc1⟩ := fetchWords_does ha hsrc he
  obtain ⟨hp1, vs, ws, hlen, he1⟩ := fetchWords_next h1
  rw [hc, List.nil_append] at he1
  have hwords : Memory.wordsAt (landed s).mem (s.src.toNat + 32 * (engineOf s).pos) (4 * g) = vs := by
    have := congrArg (fun u => (engineOf u).chunk) hl1
    simp only [engineOf_landed, he1, didFetch, engineOf_setEngine, hc, List.nil_append] at this
    exact this.symm
  have hchunk : (engineOf (foldChunk s1)).chunk = vs := by simp [foldChunk, he1]
  cases copy with
  | false =>
    refine ⟨(engineOf s).tick + 4 * g, nextChunk g (foldChunk s1),
      by simp only [runChunk, h1, andThen_next, Bool.false_eq_true, if_false], ?_, by simp [nextChunk],
      fun kind a h => ((hc1 kind a h).setEngine _).setEngine _⟩
    rw [landed_nextChunk, landed_foldChunk, hl1, didChunks, hwords, foldChunk, engineOf_setEngine, he1, engineOf_landed]
    rfl
  | true =>
    have hp2 : Progress (fun _ => False) s (foldChunk s1) := hp1.trans (progress_foldChunk _ s1)
    obtain ⟨s3, h3, hl3, -, hc3⟩ := storeWords_does (vs := vs) (a := s.dst.toNat + 32 * (engineOf s).pos) (s := foldChunk s1)
      (fun i hi => (hc1 _ _ (hb rfl i (by omega))).setEngine _)
      (hp2.pendingBelow (fun x hx => (hin x hx).2.2) (le_refl _) (by simp)) (by simp [foldChunk])
    obtain ⟨-, ⟨ws', he3⟩, -⟩ := storeWords_next h3
    refine ⟨(engineOf s).tick + 4 * g + vs.length, nextChunk g s3,
      by simp only [runChunk, h1, andThen_next, if_true, hchunk, h3], ?_, by simp [nextChunk],
      fun kind a h => (hc3 kind a ((hc1 kind a h).setEngine _)).setEngine _⟩
    rw [landed_nextChunk, hl3, he3, didStore, landed_foldChunk, hl1, didChunks, hwords, foldChunk, engineOf_setEngine, he1,
      engineOf_landed]
    rfl

theorem didChunks_zero {copy : Bool} {S D : Nat} {s : State} (hc : (engineOf s).chunk = []) (hp : (engineOf s).pending = [])
    (he : s.engine ≠ none) : didChunks copy 0 S D (engineOf s).tick s = s := by
  obtain ⟨e, h⟩ := Option.ne_none_iff_exists'.1 he
  rw [engineOf_of_some h] at hc hp
  have hE : (⟨e.pos, [], [], e.sum, e.tick⟩ : Engine) = e := by rw [← hc, ← hp]
  have hm : passMem copy s.mem D [] = s.mem := by cases copy <;> rfl
  simp only [didChunks, Nat.mul_zero, Memory.wordsAt_zero, hm, engineOf_of_some h, Nat.add_zero]
  show setEngine s ⟨e.pos, [], [], e.sum, e.tick⟩ = s
  rw [hE, setEngine_self h]

/-- Chunks over disjoint buffers, one run after the other, come to one longer run. -/
theorem didChunks_append {copy : Bool} {g n S D : Nat} (hd : copy = true → S + 32 * (g + n) ≤ D ∨ D + 32 * g ≤ S + 32 * g ∨ n = 0)
    (k k' : Nat) (s : State) :
    didChunks copy n (S + 32 * g) (D + 32 * g) k' (didChunks copy g S D k s) = didChunks copy (g + n) S D k' s := by
  have hlater : Memory.wordsAt (passMem copy s.mem D (Memory.wordsAt s.mem S (4 * g))) (S + 32 * g) (4 * n) =
      Memory.wordsAt s.mem (S + 32 * g) (4 * n) := by
    cases copy with
    | false => rfl
    | true =>
      by_cases h0 : n = 0
      · simp [h0]
      · exact Memory.wordsAt_writeWords_other _ _ (by have := hd rfl; simp; omega)
  have hsplit : Memory.wordsAt s.mem S (4 * (g + n)) =
      Memory.wordsAt s.mem S (4 * g) ++ Memory.wordsAt s.mem (S + 32 * g) (4 * n) := by
    rw [Nat.mul_add, Memory.wordsAt_add, show S + 8 * (4 * g) = S + 32 * g by omega]
  have hmem : passMem copy (passMem copy s.mem D (Memory.wordsAt s.mem S (4 * g))) (D + 32 * g)
      (Memory.wordsAt s.mem (S + 32 * g) (4 * n)) =
      passMem copy s.mem D (Memory.wordsAt s.mem S (4 * g) ++ Memory.wordsAt s.mem (S + 32 * g) (4 * n)) := by
    cases copy with
    | false => rfl
    | true =>
      simp only [passMem, if_true, Memory.writeWords_append, Memory.length_wordsAt]
      rw [show D + 8 * (4 * g) = D + 32 * g by omega]
  simp only [didChunks, setEngine_mem, engineOf_setEngine, hlater, hsplit,
    foldFrom_append _ _ _ (show (Memory.wordsAt s.mem S (4 * g)).length % 4 = 0 by simp), Nat.add_assoc]
  rw [← hmem]
  rfl

/-- The exact result of a run of chunks over disjoint buffers, the destination's first word being at `D0`. -/
theorem runChunks_does {copy : Bool} {gs : List Nat} {S D D0 : Nat} {s : State} (hc : (engineOf s).chunk = [])
    (he : s.engine ≠ none) (hS : S = s.src.toNat + 32 * (engineOf s).pos) (hD : D = s.dst.toNat + 32 * (engineOf s).pos)
    (ha : ∀ i < 4 * gs.sum, Clear .read (S + 8 * i) s) (hb : copy = true → ∀ i < 4 * gs.sum, Clear .write (D + 8 * i) s)
    (hin : pendingIn copy D0 D s) (h0 : D0 ≤ D)
    (hd : copy = true → S + 32 * gs.sum ≤ D0 ∨ D + 32 * gs.sum ≤ S ∨ gs.sum = 0) :
    ∃ k, Does (didChunks copy gs.sum S D k) s (runChunks copy gs s) := by
  induction gs generalizing s S D with
  | nil =>
    refine ⟨(engineOf s).tick, s, rfl, ?_, he, fun _ _ h => h⟩
    have := didChunks_zero (copy := copy) (S := S) (D := D) (s := landed s) (by rw [engineOf_landed]; exact hc)
      (by rw [engineOf_landed]) (by rw [landed_eq]; cases h : s.engine with
        | none => exact absurd h he
        | some e => simp [withPending])
    rw [engineOf_landed] at this
    exact this.symm
  | cons g gs ih =>
    simp only [List.sum_cons] at ha hb hd ⊢
    obtain ⟨k, t, ht, hl, het, hct⟩ := runChunk_does (copy := copy) (g := g) (D0 := D0) hc he hS hD (fun i hi => ha i (by omega))
      (fun h i hi => hb h i (by omega)) hin fun h => by have := hd h; omega
    obtain ⟨hpr, vs, -, ⟨_, _, heng⟩, -⟩ := runChunk_next hc ht
    have hsrc := hpr.only.src
    have hdst := hpr.only.dst
    obtain ⟨k', u, hu, hl', heu, hcu⟩ := ih (S := S + 32 * g) (D := D + 32 * g) (s := t) (by rw [heng]) het
      (by rw [heng, hsrc]; simp only; omega) (by rw [heng, hdst]; simp only; omega)
      (fun i hi => by
        have := hct _ _ (ha (4 * g + i) (by omega))
        rw [show S + 8 * (4 * g + i) = S + 32 * g + 8 * i by omega] at this
        exact this)
      (fun h i hi => by
        have := hct _ _ (hb h (4 * g + i) (by omega))
        rw [show D + 8 * (4 * g + i) = D + 32 * g + 8 * i by omega] at this
        exact this)
      (fun x hx => by
        rcases hpr.pending x hx with h | h
        · obtain ⟨h1, h2, h3⟩ := hin x h
          exact ⟨h1, h2, by omega⟩
        · obtain ⟨h1, h2, -⟩ := h 0 (by omega)
          obtain ⟨-, -, h4⟩ := h 7 (by omega)
          exact ⟨h1, by omega, by omega⟩)
      (by omega) (fun h => by have := hd h; omega)
    refine ⟨k', u, by rw [runChunks, ht]; exact hu, ?_, heu, fun kind a h => hcu kind a (hct kind a h)⟩
    rw [hl', hl]
    exact didChunks_append (fun h => by have := hd h; omega) k k' (landed s)

/-! ### What R48 gives -/

/-- Where the host keeps R48, every access of the source is clear. -/
theorem hostKeeps_clear_read {copy : Bool} {s : State} (h8 : s.len.toNat = 8 * wordCount s.len) (h : hostKeeps copy s)
    {i : Nat} (hi : i < wordCount s.len) : Clear .read (s.src.toNat + 8 * i) s := by
  obtain ⟨⟨⟨ha, -⟩, -⟩, hr⟩ := h
  refine ⟨ha i hi, fun r hm holes hh => ((hr r hm).1 holes hh).1 i hi, fun k hk r hm e => ?_, fun e => nomatch e⟩
  have := ((hr r hm).2.1 _ e).1
  omega

/-- And every access of a copy's destination. -/
theorem hostKeeps_clear_write {s : State} (h8 : s.len.toNat = 8 * wordCount s.len) (h : hostKeeps true s)
    {i : Nat} (hi : i < wordCount s.len) : Clear .write (s.dst.toNat + 8 * i) s := by
  obtain ⟨⟨⟨-, hb⟩, -⟩, hr⟩ := h
  refine ⟨hb rfl i hi, fun r hm holes hh => ((hr r hm).1 holes hh).2 rfl i hi, fun k hk r hm e => ?_, fun _ k hk r hm e => ?_⟩
  · have := ((hr r hm).2.1 _ e).2 rfl
    omega
  · have := (hr r hm).2.2 _ e rfl
    omega

/-- After every armed act the buffers are as valid as R48 asks. -/
theorem hostKeeps_othersDone {copy : Bool} {s : State} (h : hostKeeps copy s) : buffersValid copy (othersDone s) := by
  obtain ⟨⟨⟨ha, hb⟩, hn⟩, hr⟩ := h
  exact ⟨⟨fun i hi => admits_holesAfter (ha i hi) fun r hm holes hh => ((hr r hm).1 holes hh).1 i hi,
    fun hc i hi => admits_holesAfter (hb hc i hi) fun r hm holes hh => ((hr r hm).1 holes hh).2 hc i hi⟩, hn⟩

/-- Where the host keeps R48, other agents' acts during the pass leave the source words alone. -/
theorem hostKeeps_words {copy : Bool} {s : State} (h8 : s.len.toNat = 8 * wordCount s.len) (h : hostKeeps copy s) :
    Memory.wordsAt (othersDone s).mem s.src.toNat (wordCount s.len) = Memory.wordsAt s.mem s.src.toNat (wordCount s.len) :=
  List.map_congr_left fun _ hi => Memory.wordAt_congr fun k hk =>
    byteAt_memAfter ((hostKeeps_clear_read h8 h (List.mem_range.1 hi)).miss k hk) fun _ h => absurd h List.not_mem_nil

/-- The exact result of a pass for which the host keeps R48. -/
theorem streamPass_quiet {copy : Bool} {s : State} (h : entryCheck copy s = none) (hk : hostKeeps copy s) :
    streamPass copy s = .next { othersDone s with
      mem := passMem copy (othersDone s).mem s.dst.toNat (Memory.wordsAt s.mem s.src.toNat (wordCount s.len))
      acc := fold (Memory.wordsAt s.mem s.src.toNat (wordCount s.len))
      out := fold (Memory.wordsAt s.mem s.src.toNat (wordCount s.len))
      cnt := BitVec.ofNat 19 (wordCount s.len)
      status := okStatus s.status
      engine := none } := by
  obtain ⟨h4, h8, -, hd⟩ := entryCheck_none h
  have hs := sum_chunksOf s.platform.chunkWords (wordCount s.len / 4)
  obtain ⟨k, t, ht, hl, -, -⟩ := runChunks_does (copy := copy) (gs := chunksOf s.platform.chunkWords (wordCount s.len / 4))
    (S := s.src.toNat) (D := s.dst.toNat) (D0 := s.dst.toNat) (s := setEngine s freshEngine) rfl (by simp)
    (by simp [freshEngine]) (by simp [freshEngine])
    (fun i hi => (hostKeeps_clear_read h8 hk (by omega)).setEngine _)
    (fun hc i hi => by subst hc; exact (hostKeeps_clear_write h8 hk (by omega)).setEngine _)
    (fun x hx => absurd hx List.not_mem_nil) (le_refl _) (fun hc => by rw [hs]; have := hd hc; omega)
  have hsum : (engineOf t).sum = (engineOf (landed t)).sum := by rw [engineOf_landed]
  have hfin : finishPass t = succeed { landed t with
      acc := (engineOf (landed t)).sum
      out := (engineOf (landed t)).sum
      cnt := BitVec.ofNat 19 (wordCount (landed t).len)
      engine := none } := by
    rw [← hsum]
    rfl
  have hstart : landed (setEngine s freshEngine) = setEngine (othersDone s) freshEngine := by
    rw [landed_eq]
    simp only [engineOf_setEngine, setEngine_mem, setEngine_rivals, setEngine_observed, setEngine_holes, freshEngine, landedMem,
      pendingAfter_nothing, performWrites_nil]
    rfl
  rw [hs] at hl
  simp only [streamPass, h, hk.1.2, Bool.false_eq_true, if_false, ht, andThen_next]
  rw [hfin, hl, hstart, ← hostKeeps_words h8 hk]
  simp only [didChunks, setEngine_mem, engineOf_setEngine, ← h4]
  rfl

end Sys2Proof.Machine
end

