-- ==== Sys2Proof/Laws/Stuck.lean ====
section
/-! SUPPORT. Where the engine gets stuck (R49 (c), R126): exactly at the first access, in the order it makes them, that data
memory does not admit at that moment. -/

namespace Sys2Proof.Machine

/-- An answer of an engine operation that makes the accesses `xs` from `s`: stuck at the first that is refused, else a next state
in which so many accesses more have been made and later ones meet the same mappings. -/
def Follows (s : State) (xs : List (AccessKind × Nat)) (o : StepResult) : Prop :=
  match firstRefused s (engineOf s).tick xs with
  | some x => o = .fault (.stuckAccess x.1 x.2)
  | none => ∃ t, o = .next t ∧ (engineOf t).tick = (engineOf s).tick + xs.length ∧
      ∀ tick, (engineOf t).tick ≤ tick → holesAt t tick = holesAt s tick

theorem firstRefused_append (s : State) (tick : Nat) (xs ys : List (AccessKind × Nat)) :
    firstRefused s tick (xs ++ ys) = (firstRefused s tick xs).or (firstRefused s (tick + xs.length) ys) := by
  induction xs generalizing tick with
  | nil => simp [firstRefused]
  | cons x xs ih =>
    simp only [List.cons_append, firstRefused, List.length_cons]
    split
    · rw [ih, show tick + 1 + xs.length = tick + (xs.length + 1) by omega]
    · rfl

theorem firstRefused_congr {s t : State} {tick : Nat} (h : ∀ k, tick ≤ k → holesAt t k = holesAt s k)
    (xs : List (AccessKind × Nat)) : firstRefused t tick xs = firstRefused s tick xs := by
  induction xs generalizing tick with
  | nil => rfl
  | cons x xs ih => rw [firstRefused, firstRefused, h tick (le_refl _), ih fun k hk => h k (by omega)]

theorem follows_nil (s : State) : Follows s [] (.next s) := ⟨s, rfl, rfl, fun _ _ => rfl⟩

/-- A change of the hidden state that keeps the number of accesses made is no access. -/
theorem follows_setEngine {s : State} {e : Engine} (h : e.tick = (engineOf s).tick) : Follows s [] (.next (setEngine s e)) :=
  ⟨_, rfl, h, fun _ _ => rfl⟩

theorem follows_andThen {s : State} {xs ys : List (AccessKind × Nat)} {o : StepResult} {f : State → StepResult}
    (h : Follows s xs o) (hf : ∀ t, o = .next t → Follows t ys (f t)) : Follows s (xs ++ ys) (andThen o f) := by
  simp only [Follows, firstRefused_append] at h ⊢
  cases hx : firstRefused s (engineOf s).tick xs with
  | some x =>
    rw [hx] at h
    simp only [Option.some_or, h, andThen_fault]
  | none =>
    rw [hx] at h
    obtain ⟨t, rfl, ht, hh⟩ := h
    have h2 := hf t rfl
    rw [Follows, firstRefused_congr hh, ht] at h2
    simp only [Option.none_or, andThen_next]
    cases hy : firstRefused s ((engineOf s).tick + xs.length) ys with
    | some y =>
      rw [hy] at h2
      exact h2
    | none =>
      rw [hy] at h2
      obtain ⟨u, hu, hut, hhu⟩ := h2
      exact ⟨u, hu, by simp only [List.length_append]; omega, fun k hk => by rw [hhu k hk, hh k (by omega)]⟩

theorem wordAccesses_succ (kind : AccessKind) (a n : Nat) :
    wordAccesses kind a (n + 1) = (kind, a) :: wordAccesses kind (a + 8) n := by
  simp only [wordAccesses, List.range_succ_eq_map, List.map_cons, List.map_map, Nat.mul_zero, Nat.add_zero, List.cons.injEq,
    true_and]
  refine List.map_congr_left fun i _ => ?_
  simp only [Function.comp, Nat.succ_eq_add_one, Prod.mk.injEq, true_and]
  omega

/-- An access settles first, so it meets the mapping of its own number, and later ones those of theirs. -/
theorem follows_access {s t : State} {kind : AccessKind} {a : Nat} {o : StepResult}
    (h : o = if admits kind (holesAt s (engineOf s).tick) a then .next t else .fault (.stuckAccess kind a))
    (ht : (engineOf t).tick = (engineOf s).tick + 1) (hh : t.holes = (settle s).holes) (hr : t.rivals = (settle s).rivals) :
    Follows s [(kind, a)] o := by
  simp only [Follows, firstRefused]
  by_cases hc : admits kind (holesAt s (engineOf s).tick) a = true
  · rw [if_pos hc] at h ⊢
    refine ⟨t, h, ht, fun k hk => ?_⟩
    rw [← holesAt_settle s (by omega), holesAt, holesAt, hh, hr]
  · rw [if_neg hc] at h ⊢
    exact h

theorem fetchWord_follows (a : Nat) (s : State) : Follows s [(.read, a)] (fetchWord a s) :=
  follows_access rfl (by rw [engineOf_setEngine, engineOf_settle]) rfl rfl

theorem fetchWords_follows (n a : Nat) (s : State) : Follows s (wordAccesses .read a n) (fetchWords n a s) := by
  induction n generalizing a s with
  | zero => exact follows_nil s
  | succ n ih =>
    rw [wordAccesses_succ]
    exact follows_andThen (fetchWord_follows a s) fun t _ => ih _ t

theorem storeWord_follows (a : Nat) (v : Word) (s : State) : Follows s [(.write, a)] (storeWord a v s) :=
  follows_access (storeWord_eq a v s) (by rw [engineOf_setEngine, engineOf_settle]) rfl rfl

theorem storeWords_follows (vs : List Word) (a : Nat) (s : State) :
    Follows s (wordAccesses .write a vs.length) (storeWords vs a s) := by
  induction vs generalizing a s with
  | nil => exact follows_nil s
  | cons v vs ih =>
    rw [List.length_cons, wordAccesses_succ]
    exact follows_andThen (storeWord_follows a v s) fun t _ => ih _ t

theorem runChunk_follows (copy : Bool) (g : Nat) {s : State} (hc : (engineOf s).chunk = []) :
    Follows s (chunkAccesses copy s.src.toNat s.dst.toNat (32 * (engineOf s).pos) g) (runChunk copy g s) := by
  refine follows_andThen (fetchWords_follows _ _ s) fun s1 h1 => ?_
  obtain ⟨-, vs, _, hl, he⟩ := fetchWords_next h1
  have hlen : (engineOf (foldChunk s1)).chunk.length = 4 * g := by simp [foldChunk, he, hc, hl]
  have hfold : Follows s1 [] (.next (foldChunk s1)) := follows_setEngine rfl
  have hstore := follows_andThen (ys := if copy then wordAccesses .write (s.dst.toNat + 32 * (engineOf s).pos) (4 * g) else [])
    (f := fun s2 => if copy then storeWords (engineOf (foldChunk s1)).chunk (s.dst.toNat + 32 * (engineOf s).pos) s2
      else .next s2) hfold fun t _ => by
      cases copy with
      | false => exact follows_nil t
      | true =>
        rw [if_pos rfl, if_pos rfl, ← hlen]
        exact storeWords_follows _ _ t
  have := follows_andThen hstore fun t _ => (follows_setEngine rfl : Follows t [] (.next (nextChunk g t)))
  rw [List.nil_append, List.append_nil] at this
  exact this

theorem runChunks_follows (copy : Bool) (gs : List Nat) {s : State} (hc : (engineOf s).chunk = []) :
    Follows s (chunksAccesses copy s.src.toNat s.dst.toNat (engineOf s).pos gs) (runChunks copy gs s) := by
  induction gs generalizing s with
  | nil => exact follows_nil s
  | cons g gs ih =>
    refine follows_andThen (runChunk_follows copy g hc) fun t ht => ?_
    obtain ⟨hp, _, _, ⟨_, _, he⟩, _⟩ := runChunk_next hc ht
    have := ih (s := t) (by rw [he])
    rw [he, hp.only.src, hp.only.dst] at this
    exact this

/-- Where a pass whose checks pass stops, and that it completes otherwise. -/
theorem streamPass_follows {copy : Bool} {s : State} (h : entryCheck copy s = none) (hn : passCoversBlock copy s = false) :
    (∀ x, firstRefused s 0 (passAccesses copy s) = some x → streamPass copy s = .fault (.stuckAccess x.1 x.2)) ∧
    (firstRefused s 0 (passAccesses copy s) = none → ∃ t, streamPass copy s = .next t) := by
  have := runChunks_follows copy (chunksOf s.platform.chunkWords (wordCount s.len / 4)) (s := setEngine s freshEngine) rfl
  have hs : firstRefused (setEngine s freshEngine) 0 (passAccesses copy s) = firstRefused s 0 (passAccesses copy s) :=
    firstRefused_congr (s := s) (t := setEngine s freshEngine) (fun _ _ => rfl) _
  change (match firstRefused (setEngine s freshEngine) 0 (passAccesses copy s) with | some _ => _ | none => _) at this
  rw [hs] at this
  simp only [streamPass, h, hn, Bool.false_eq_true, if_false]
  refine ⟨fun x hx => ?_, fun hx => ?_⟩
  · rw [hx] at this
    rw [this]
    rfl
  · rw [hx] at this
    obtain ⟨t, ht, -⟩ := this
    exact ⟨_, by rw [ht]; rfl⟩

end Sys2Proof.Machine
end

