-- ==== Sys2Proof/Tests/Slice0.lean ====
section
/-! SUPPORT. Tests: ill-formed fields and accesses, decoding of words written out from the spec, one step of each command with
the expected values of 95_test_vectors.md, and a witness for every obligation that has hypotheses. -/

namespace Sys2Proof.Tests

open Sys2Proof.Machine

/-! ### Well-formedness: one ill-formed term for each check -/

/-- R59 (a): bit 6 is set. -/
theorem test_illformed_zero : ({ zero := 1, mod := 0, op := 0x9 } : FormatC).zeroLegal = false ∧
    ({ zero := 1, mod := 0, op := 0x9 } : FormatC).wellFormed = false := by decide

/-- R59 (b): OP = 0xA. -/
theorem test_illformed_op : ({ zero := 0, mod := 0, op := 0xA } : FormatC).opAssigned = false ∧
    ({ zero := 0, mod := 0, op := 0xA } : FormatC).wellFormed = false := by decide

/-- R59 (c): CSUM with MOD = 1. -/
theorem test_illformed_mod : ({ zero := 0, mod := 1, op := 0x8 } : FormatC).modLegal = false ∧
    ({ zero := 0, mod := 1, op := 0x8 } : FormatC).wellFormed = false := by decide

/-- R59 (d): COPY with STRAT = 3. -/
theorem test_illformed_strat : ({ zero := 0, mod := 3, op := 0x9 } : FormatC).modLegal = false ∧
    ({ zero := 0, mod := 3, op := 0x9 } : FormatC).wellFormed = false := by decide

/-- R17 (a): another size, an unaligned offset, an offset past the block; the last slot is in. -/
theorem test_illformed_access : accessSupported 4 0x10 = false ∧ accessSupported 8 0x14 = false ∧
    accessSupported 8 0x100 = false ∧ accessSupported 8 0xF8 = true := by decide

/-! ### Decoding: words written out bit by bit from R54 and R58 (ZERO, MOD, OP) -/

theorem test_decode_acc :
    decode 0b00000000000000000000000000_00_0001 = .ok .accInit ∧ decode 0b00000000000000000000000000_00_0010 = .ok .accUpd ∧
    decode 0b00000000000000000000000000_00_0011 = .ok .accPut ∧
    decode 0b00000000000000000000000000_00_0100 = .ok .accCmpeq := by decide

theorem test_decode_render :
    decode 0b00000000000000000000000000_00_0101 = .ok .renderOut ∧
    decode 0b00000000000000000000000000_01_0101 = .ok .renderRef ∧
    decode 0b00000000000000000000000000_10_0101 = .ok .renderAcc := by decide

theorem test_decode_stream :
    decode 0b00000000000000000000000000_00_1000 = .ok .csum ∧ decode 0b00000000000000000000000000_00_1001 = .ok .copyB ∧
    decode 0b00000000000000000000000000_01_1001 = .ok .copyW ∧ decode 0b00000000000000000000000000_10_1001 = .ok .copyF := by
  decide

/-- The illegal words of 95_test_vectors.md 2.1, by the case of R59. -/
theorem test_decode_illegal :
    ([0x49, 0x108, 0x80000009, 0xFFFFFFFF] : List CommandWord).all (decode · == .error .zeroFieldNotZero) = true ∧
    ([0x0, 0x6, 0x7, 0xA, 0xB, 0xC, 0xD, 0xE, 0xF, 0x3F] : List CommandWord).all
      (decode · == .error .opUnassigned) = true ∧
    ([0x11, 0x12, 0x13, 0x14, 0x18, 0x21, 0x28, 0x38] : List CommandWord).all (decode · == .error .modNotZero) = true ∧
    ([0x35, 0x39] : List CommandWord).all (decode · == .error .modReserved) = true := by decide

/-- R17 (b): data[63:32] of a CMD write is ignored (95_test_vectors.md 2.1). -/
theorem test_decode_upper_data : decode (commandWordOf 0x0000000100000008) = .ok .csum := by decide

/-! ### One step of each command, expected values from 95_test_vectors.md -/

/-- A small state: words at 0x2000 and 0x3000 as in program P2, with the operand registers given. -/
def ready (src dst len : Word) : State :=
  { State.reset with
    src := src
    dst := dst
    len := len
    written := { nothingWritten with src := true, dst := true, len := true }
    mem := memoryOfWords ([(0x2000, 0), (0x2008, 1), (0x2010, 2), (0x2018, 3)] ++
      [(0x3000, 0xAAAAAAAAAAAAAAAA), (0x3008, 0xAAAAAAAAAAAAAAAA), (0x3010, 0xAAAAAAAAAAAAAAAA),
       (0x3018, 0xAAAAAAAAAAAAAAAA)]) }

/-- What a function of the next state gives; none where the step stops. -/
def after {α : Type} (o : StepResult) (f : State → α) : Option α :=
  match o with
  | .next t => some (f t)
  | .fault _ => none
  | .refused _ => none

/-- The fault a step ends in. -/
def stopOf (o : StepResult) : Option Fault :=
  match o with
  | .next _ => none
  | .fault r => some r
  | .refused _ => none

/-- V3 and V8 of 95_test_vectors.md 2.2. -/
def v3 : Accum := { a1 := 2, b1 := 3, a2 := 6, b2 := 9 }
def v8 : Accum := { a1 := 0xb, b1 := 0x14, a2 := 0x13, b2 := 0x28 }

/-- V16 of 95_test_vectors.md 2.2. -/
def v16 : Accum := { a1 := 0, b1 := 0x0123456789abcdf0, a2 := 0x5eadbeefcafebabf, b2 := 0x3d5b7ddf95fd757e }

/-- 2.5: ACC.INIT from ACC = V8, CNT = 8, OUT = V3. -/
theorem test_accInit : after (exec .accInit { State.reset with acc := v8, cnt := 8, out := v3 })
    (fun t => (t.acc, t.cnt, t.out)) = some (Accum.ident, 0, v3) := by decide

/-- P3, line 12: ACC.UPD from V3 with 4, 5, 6, 7. -/
theorem test_accUpd : after
    (exec .accUpd { State.reset with acc := v3, cnt := 4, w := { w0 := 4, w1 := 5, w2 := 6, w3 := 7 } })
    (fun t => (t.acc, t.cnt)) = some (v8, 8) := by decide

/-- V13: the sum of lane 1 wraps to 0. -/
theorem test_accUpd_wraps : after
    (exec .accUpd { State.reset with w := { w0 := 0xffffffffffffffff, w1 := 0, w2 := 0, w3 := 0 } })
    (fun t => t.acc) = some { a1 := 0, b1 := 0, a2 := 1, b2 := 2 } := by decide

/-- 2.5: ACC.PUT from ACC = V8, OUT = V3. -/
theorem test_accPut : after (exec .accPut { State.reset with acc := v8, out := v3 })
    (fun t => (t.out, t.acc)) = some (v8, v8) := by decide

/-- 2.5: equal, and the lanes exchanged. -/
theorem test_accCmpeq :
    after (exec .accCmpeq { State.reset with out := v3, ref := v3 }) (fun t => statusWord t.status) = some 0x9 ∧
    after (exec .accCmpeq { State.reset with out := v3, ref := { v3 with a1 := 6, a2 := 2 } })
      (fun t => statusWord t.status) = some 0x1 := by decide

/-- 2.3: the TXT row of V8. -/
theorem test_renderOut : after (exec .renderOut { State.reset with out := v8 }) (fun t => t.txt) =
    some { t0 := 0x3030303030303030, t1 := 0x6230303030303030, t2 := 0x3030303030303030, t3 := 0x3331303030303030
           t4 := 0x3030303030303030, t5 := 0x3431303030303030, t6 := 0x3030303030303030, t7 := 0x3832303030303030 } := by
  decide

/-- 2.3: the TXT row of V16. -/
theorem test_renderRef : after (exec .renderRef { State.reset with ref := v16 }) (fun t => t.txt) =
    some { t0 := 0x3030303030303030, t1 := 0x3030303030303030, t2 := 0x6665656264616535, t3 := 0x6662616265666163
           t4 := 0x3736353433323130, t5 := 0x3066646362613938, t6 := 0x6664643762356433, t7 := 0x6537353764663539 } := by
  decide

/-- P3, line 16: the second register of V8's text. -/
theorem test_renderAcc : after (exec .renderAcc { State.reset with acc := v8 }) (fun t => t.txt.t1) =
    some 0x6230303030303030 := by decide

/-- P2, line 15: CSUM over 0, 1, 2, 3. -/
theorem test_csum : after (exec .csum (ready 0x2000 0 32)) (fun t => (t.acc, t.out, t.cnt, statusWord t.status)) =
    some (v3, v3, 4, 0x1) := by decide

/-- 2.4: size outranks length and alignment. -/
theorem test_csum_size_first : after (exec .csum (ready 0x1004 0 4194305)) (fun t => (statusWord t.status, t.out)) =
    some (0x2, Accum.ident) := by decide

/-- 2.6: the destination after COPY.B, and the sum. -/
theorem test_copyB : after (exec .copyB (ready 0x2000 0x3000 32)) (fun t => (Memory.wordsAt t.mem 0x3000 4, t.out)) =
    some ([0, 1, 2, 3], v3) := by decide

/-- 2.4: overlap. -/
theorem test_copyW_overlap : after (exec .copyW (ready 0x2000 0x2010 32)) (fun t => statusWord t.status) = some 0x4 := by
  decide

/-- P4, line 29: COPY.F succeeds. -/
theorem test_copyF : after (exec .copyF (ready 0x2000 0x3000 32)) (fun t => (t.out.b2, statusWord t.status)) =
    some (0x9, 0x1) := by decide

/-- 2.4: size outranks overlap. -/
theorem test_copyF_size_first : after (exec .copyF (ready 0x2000 0x2000 4194304)) (fun t => statusWord t.status) =
    some 0x2 := by decide

/-- 2.5: STATUS = 0x9, then an illegal word. -/
theorem test_illegal_keeps_eq :
    after (issue (wr 0x00 0x0) { State.reset with status := { ok := true, err := none, eq := true } })
      (fun t => statusWord t.status) = some 0xE := by decide

/-- 2.6: the bytes 01 to 08, ascending, are the word 0x0807060504030201. -/
theorem test_little_endian :
    Memory.wordAt ((List.range 8).map fun k => (0x2000 + k, BitVec.ofNat 8 (k + 1))) 0x2000 = 0x0807060504030201 := by
  decide

/-- V9 and V16 of 2.2. -/
theorem test_fold :
    fold [0, 1, 2, 3, 4, 5, 6, 7, 8, 9, 10, 11, 12, 13, 14, 15] = { a1 := 53, b1 := 160, a2 := 69, b2 := 232 } ∧
    fold [0x0123456789ABCDEF, 0xFEDCBA9876543210, 0xDEADBEEFCAFEBABE, 0x8000000000000000] = v16 := by decide

/-- P1, lines 1 and 4, in the notation of R63. -/
theorem test_listing : listing (wr 0x10 0x1000) = some "W 10 0000000000001000".toList ∧
    listing (rd 0xB8) = some "R B8".toList := by decide

/-! ### Witnesses: states and operands that meet the hypotheses of each obligation -/

/-- A CSUM or COPY.* whose checks pass and whose host keeps R48, as decidable facts. -/
theorem test_ready_keeps :
    entryCheck true (ready 0x2000 0x3000 32) = none ∧ hostKeeps true (ready 0x2000 0x3000 32) ∧
    entryCheck false (ready 0x2000 0 32) = none ∧ hostKeeps false (ready 0x2000 0 32) :=
  ⟨by decide, by decide, by decide, by decide⟩

/-- A state whose buffers other agents spare while they write just outside them, on every side, read the source and unmap memory
elsewhere, and data memory performs some writes early, not in order. -/
def besides (s : State) : State :=
  { s with rivals := [
      { after := 0, act := .write 0x1FFF 1 }, { after := 1, act := .write 0x2020 2 },
      { after := 2, act := .remap [⟨0x4000, 0x1000, true, true⟩] },
      { after := 5, act := .write 0x2FFF 3 }, { after := 6, act := .read 0x2018 },
      { after := 7, act := .perform 0x3010 }, { after := 7, act := .perform 0x3000 }, { after := 9, act := .write 0x3020 4 }] }

/-- R48, last sentence: with such agents at work the host keeps R48 nevertheless. -/
theorem test_besides_keeps :
    hostKeeps true (besides (ready 0x2000 0x3000 32)) ∧ hostKeeps false (besides (ready 0x2000 0x3000 32)) :=
  ⟨by decide, by decide⟩

/-- R48: an unmapping of its last word (a), a write to the last byte of either buffer (b) or a read of the last byte of a copy's
destination (c) breaks it. -/
theorem test_not_spared :
    ¬ actSpares true (ready 0x2000 0x3000 32) (.write 0x201F 0) ∧
    ¬ actSpares true (ready 0x2000 0x3000 32) (.write 0x301F 0) ∧
    ¬ actSpares true (ready 0x2000 0x3000 32) (.read 0x301F) ∧
    ¬ actSpares true (ready 0x2000 0x3000 32) (.remap [⟨0x301F, 1, false, true⟩]) :=
  ⟨by decide, by decide, by decide, by decide⟩

/-- R48, last sentence: the copy and its sum are the same, and the other agents' bytes and mapping stand. -/
theorem test_copyB_besides : after (exec .copyB (besides (ready 0x2000 0x3000 32)))
    (fun t => (Memory.wordsAt t.mem 0x3000 4, t.out, t.holes, Memory.read? t.mem 0x3020)) =
    some ([0, 1, 2, 3], v3, [⟨0x4000, 0x1000, true, true⟩], some 4) := by decide +kernel

/-- Where memory admits everything, the largest accepted length meets R48 too. -/
theorem test_ready_keeps_largest :
    entryCheck true (ready 0x400000 0x800000 4194272) = none ∧ hostKeeps true (ready 0x400000 0x800000 4194272) :=
  ⟨by decide +kernel, ⟨⟨fun _ _ => rfl, fun _ _ _ => rfl⟩, by decide +kernel⟩, fun _ h => absurd h List.not_mem_nil⟩

/-- The inbox of the hypothesis is any list that begins with the write; the words lie at the ends of the illegal ranges. -/
theorem test_witness_IllegalWordFailsAndChangesNothingElse :
    ([0x0, 0x39, 0x3F, 0x40, 0xFFFFFFFF] : List CommandWord).all (fun cw => decide
      (cw ∉ ([0x01, 0x02, 0x03, 0x04, 0x05, 0x15, 0x25, 0x08, 0x09, 0x19, 0x29] : List CommandWord))) = true ∧
    commandWordOf 0xFFFFFFFF00000039 = 0x39 := by decide

theorem test_witness_StepRunsDecodedCommand :
    ({ State.reset with inbox := [wr 0x00 0x0000000100000008] }).inbox = .wr 8 0x00 0x0000000100000008 :: [] ∧
    decode (commandWordOf 0x0000000100000008) = .ok .csum ∧ State.reset.inbox = [] := by decide

theorem test_witness_PlacedWordRunsNext :
    decodeTableWord 32 0x29 = some .copyF ∧ decodeTableWord 32 0x1 = some .accInit := by decide

theorem test_witness_UnsupportedAccessRefused :
    ((4 : Nat) ≠ 8 ∨ (0x10 : Nat) % 8 ≠ 0 ∨ 0xF8 < (0x10 : Nat)) ∧ ((8 : Nat) ≠ 8 ∨ (0xF9 : Nat) % 8 ≠ 0 ∨ 0xF8 < (0xF9 : Nat)) ∧
    ((8 : Nat) ≠ 8 ∨ (0x100 : Nat) % 8 ≠ 0 ∨ 0xF8 < (0x100 : Nat)) := by decide

/-- The hypothesis at the first offset, at CNT and at the last, in the state after reset. -/
theorem test_witness_ReadReturnsRegisterAndChangesNothing_hypothesis :
    let s := State.reset
    let pairs : List (Nat × Word) := [(0x00, 0), (0x08, statusWord s.status), (0x10, s.src), (0x18, s.dst), (0x20, s.len),
      (0x28, BitVec.ofNat 64 s.cnt.toNat), (0x30, s.w.w0), (0x38, s.w.w1), (0x40, s.w.w2), (0x48, s.w.w3),
      (0x50, s.acc.a1), (0x58, s.acc.a2), (0x60, s.acc.b1), (0x68, s.acc.b2),
      (0x70, s.out.a1), (0x78, s.out.a2), (0x80, s.out.b1), (0x88, s.out.b2),
      (0x90, s.ref.a1), (0x98, s.ref.a2), (0xA0, s.ref.b1), (0xA8, s.ref.b2),
      (0xB0, s.txt.t0), (0xB8, s.txt.t1), (0xC0, s.txt.t2), (0xC8, s.txt.t3), (0xD0, s.txt.t4), (0xD8, s.txt.t5),
      (0xE0, s.txt.t6), (0xE8, s.txt.t7), (0xF0, 0), (0xF8, 0)]
    (0x00, 0) ∈ pairs ∧ (0x28, 0) ∈ pairs ∧ (0x50, 1) ∈ pairs ∧ (0xF8, 0) ∈ pairs := by decide

/-- Reads at the first and last offset, and of CNT, at the state after reset. -/
theorem test_witness_ReadReturnsRegisterAndChangesNothing :
    after (issue (rd 0x00) State.reset) (fun t => t.replies) = some [0] ∧
    after (issue (rd 0x28) { State.reset with cnt := 524284 }) (fun t => t.replies) = some [0x7FFFC] ∧
    after (issue (rd 0xF8) State.reset) (fun t => t.replies) = some [0] := by decide

theorem test_witness_ReadOnlyWriteIgnored :
    (0x08 : Nat) ∈ [0x08, 0x28, 0x50, 0x58, 0x60, 0x68, 0x70, 0x78, 0x80, 0x88,
      0xB0, 0xB8, 0xC0, 0xC8, 0xD0, 0xD8, 0xE0, 0xE8, 0xF0, 0xF8] ∧
    (0xF8 : Nat) ∈ [0x08, 0x28, 0x50, 0x58, 0x60, 0x68, 0x70, 0x78, 0x80, 0x88,
      0xB0, 0xB8, 0xC0, 0xC8, 0xD0, 0xD8, 0xE0, 0xE8, 0xF0, 0xF8] := by decide

/-- A copy cut short; its clauses at the first destination word, the last, and the bytes on either side. -/
theorem test_witness_AbandonedCopyLeavesMixture :
    decode (commandWordOf 0x19) = .ok .copyW ∧ Instr.copyW ∈ [Instr.copyB, .copyW, .copyF] ∧
    entryCheck true (ready 0x2000 0x3000 32) = none ∧ passCoversBlock true (ready 0x2000 0x3000 32) = false ∧
    0 < wordCount (32 : Word) ∧ 3 < wordCount (32 : Word) ∧
    (0x2FFF < (0x3000 : Word).toNat) ∧ (0x3000 : Word).toNat + (32 : Word).toNat ≤ 0x3020 := by decide

theorem test_witness_EveryStepKeepsInvariant :
    ((ready 0x2000 0x3000 32).withFetchWord 32 0x09).Inv ∧
    (after (step ((ready 0x2000 0x3000 32).withFetchWord 32 0x09)) fun t => t.cnt) = some 4 := by decide

/-- A success, a failure, an illegal word and a reset, each with a next state. -/
theorem test_witness_OkExactlyWhenNoError :
    after (issue (wr 0x00 0x03) State.reset) (fun t => t.status.ok) = some true ∧
    after (issue (wr 0x00 0x08) State.reset) (fun t => t.status.ok) = some false ∧
    after (issue (wr 0x00 0x00) State.reset) (fun t => t.status.ok) = some false ∧
    after (issue .reset State.reset) (fun t => t.status.ok) = some false := by decide

theorem test_witness_OnlyCmpeqWritesEq :
    after (issue (wr 0x00 0x03) { State.reset with status := { ok := true, err := none, eq := true } })
      (fun t => t.status.eq) = some true ∧
    decode (commandWordOf 0x03) ≠ .ok .accCmpeq := by decide

theorem test_witness_FailureChangesOnlyStatus :
    after (exec .csum State.reset) (fun t => t.status.ok) = some false ∧
    after (exec .accUpd { State.reset with cnt := 524284 }) (fun t => t.status.ok) = some false := by decide

/-- Every command answers a next state somewhere, which the three statements about registers need. -/
theorem test_witness_CommandsKeepOperandRegisters :
    ∀ i ∈ [Instr.accInit, .accUpd, .accPut, .accCmpeq, .renderOut, .renderRef, .renderAcc, .csum, .copyB, .copyW, .copyF],
      after (exec i (ready 0x2000 0x3000 32)) (fun t => t.status.ok) = some true := by decide

theorem test_witness_ResultRegistersWrittenOnlyByTheirCommands :
    Instr.csum ∉ [Instr.renderOut, .renderRef, .renderAcc] ∧
    Instr.accUpd ∉ [Instr.accPut, .csum, .copyB, .copyW, .copyF] ∧
    Instr.accPut ∉ [Instr.accInit, .accUpd, .csum, .copyB, .copyW, .copyF] := by decide

/-- A copy with the bytes just below and just above its destination, and with another agent's write elsewhere. -/
theorem test_witness_MemoryOutsideDestinationUnchanged :
    let s : State := { ready 0x2000 0x3000 32 with rivals := [{ after := 0, act := .write 0x2000 0xFF }] }
    after (exec .copyB s) (fun t => t.status.ok) = some true ∧ (∀ r ∈ s.rivals, actWrites r.act ≠ some 0x2FFF) ∧
    (∀ r ∈ s.rivals, actWrites r.act ≠ some 0x3020) ∧ 0x2FFF < s.dst.toNat ∧ s.dst.toNat + s.len.toNat ≤ 0x3020 ∧
    Instr.csum ∉ [Instr.copyB, .copyW, .copyF] := by decide

/-- Two states that differ in DST, which nothing has written, and a CSUM whose operands have been written. -/
theorem test_witness_UnwrittenValuesDoNotMatter :
    let s : State := { ready 0x2000 0x1234 32 with written := { nothingWritten with src := true, len := true } }
    let s' : State := { s with dst := 0 }
    operandsWritten .csum s.written = true ∧ forgetUnwritten s = forgetUnwritten s' ∧ s ≠ s' := by decide

theorem test_witness_FoldInBufferOrder :
    ([0, 1, 2, 3] : List Word).length % 4 = 0 ∧ ([] : List Word).length % 4 = 0 := by decide

theorem test_witness_FoldClosedForm : ([0, 1, 2, 3, 4, 5, 6, 7] : List Word).length % 4 = 0 := by decide

/-- V18 and V19: words 1 and 3 of lane 1 exchanged; and two neighbours of lane 2. -/
theorem test_witness_ExchangeInLaneChangesOnlyB :
    let ws : List Word := [0, 5, 7, 7, 0x8000000000000000, 9, 7, 7]
    let ws' : List Word := [0x8000000000000000, 5, 7, 7, 0, 9, 7, 7]
    (ws.length % 4 = 0 ∧ ws'.length = ws.length ∧ lane1 ws = [] ++ 0 :: ([5] ++ 0x8000000000000000 :: [9]) ∧
      lane1 ws' = [] ++ 0x8000000000000000 :: ([5] ++ 0 :: [9]) ∧ lane2 ws' = lane2 ws) ∧
    (lane2 [0, 0, 1, 2] = [] ++ (1 : Word) :: ([] ++ 2 :: []) ∧ lane2 [0, 0, 2, 1] = [] ++ (2 : Word) :: ([] ++ 1 :: []) ∧
      lane1 [0, 0, 2, 1] = lane1 ([0, 0, 1, 2] : List Word)) := by decide

/-- S8: word 5 of eight, in lane 1; and a word of lane 2. -/
theorem test_witness_SingleWordChangeIsSeen :
    (([0, 1, 2, 3, 4] : List Word).length + 1 + ([6, 7] : List Word).length) % 4 = 0 ∧
    ([0, 1, 2, 3, 4] : List Word).length % 4 < 2 ∧ (0x20000 : Word) ≠ 0 ∧
    (([0, 1] : List Word).length + 1 + ([3] : List Word).length) % 4 = 0 ∧ 2 ≤ ([0, 1] : List Word).length % 4 := by decide

/-- The bound of R74 is attained; no words at all. -/
theorem test_witness_SmallWordsNeverWrap :
    let ws : List Word := [0x20001800, 0x20001800, 0x20001800, 0]
    ws.length % 4 = 0 ∧ ws.length < 2 ^ 19 ∧ ws.all (fun w => decide (w.toNat ≤ 536877056)) = true := by decide

/-- 2.4: the last ACC.UPD that succeeds and the first that does not. -/
theorem test_witness_AccUpdFoldsOrFails :
    (524280 : BitVec 19).toNat + 4 < 2 ^ 19 ∧ 2 ^ 19 ≤ (524284 : BitVec 19).toNat + 4 := by decide

theorem test_witness_WriteThenReadWord : Memory.wf [] ∧ Memory.wf (ready 0 0 0).mem ∧ (0 : Nat) < 8 ∧ (7 : Nat) < 8 ∧
    (0x1FFF : Nat) < 0x2000 ∧ (0x2000 : Nat) + 8 ≤ 0x2008 := by decide

/-- The last 32 bytes of the data space: SRC + LEN = 2^64 exactly. -/
theorem test_witness_CsumFoldsSource :
    let s := ready 0xFFFFFFFFFFFFFFE0 0 32
    s.len.toNat < 2 ^ 22 ∧ s.len.toNat % 32 = 0 ∧ s.src.toNat % 8 = 0 ∧ s.src.toNat + s.len.toNat ≤ 2 ^ 64 ∧
    hostKeeps false s := by decide

/-- 2.4: each clause at its boundary. -/
theorem test_witness_CsumFailsAtEntry :
    2 ^ 22 ≤ (4194304 : Word).toNat ∧
    ((4194303 : Word).toNat < 2 ^ 22 ∧ (4194303 : Word).toNat % 32 ≠ 0) ∧
    ((32 : Word).toNat < 2 ^ 22 ∧ (0x1004 : Word).toNat % 8 ≠ 0) ∧
    ((64 : Word).toNat < 2 ^ 22 ∧ 2 ^ 64 < (0xFFFFFFFFFFFFFFE0 : Word).toNat + (64 : Word).toNat) := by decide

theorem test_witness_CsumOfZeroLength :
    (ready 0x1000 0 0).len = 0 ∧ (ready 0x1000 0 0).src.toNat % 8 = 0 ∧
    (ready 0x1004 0 0).src.toNat % 8 ≠ 0 := by decide

/-- The same words at two addresses, in two states. -/
theorem test_witness_CsumDependsOnlyOnWords :
    let s1 := ready 0x2000 0 32
    let s2 : State := { ready 0x4008 0 32 with
      mem := memoryOfWords [(0x4008, 0), (0x4010, 1), (0x4018, 2), (0x4020, 3)], out := v8 }
    entryCheck false s1 = none ∧ entryCheck false s2 = none ∧ hostKeeps false s1 ∧ hostKeeps false s2 ∧
    Memory.wordsAt s1.mem s1.src.toNat (wordCount s1.len) = Memory.wordsAt s2.mem s2.src.toNat (wordCount s2.len) := by
  exact ⟨by decide, by decide, by decide, by decide, by decide⟩

/-- A data space in which one region is not there. -/
def withHole (base size : Nat) (s : State) : State := { s with holes := [⟨base, size, true, true⟩] }

/-- The hole is a byte of the second word; and the stop itself. -/
theorem test_witness_CsumStuckAtFirstHole :
    let s := withHole 0x200F 1 (ready 0x2000 0 32)
    entryCheck false s = none ∧ passCoversBlock false s = false ∧ 1 < wordCount s.len ∧
    (∀ k < 1, admits .read (holesAt s k) (s.src.toNat + 8 * k) = true) ∧
    admits .read (holesAt s 1) (s.src.toNat + 8 * 1) = false ∧
    stopOf (exec .csum s) = some (.stuckAccess .read 0x2008) := by decide

/-- R49 (c), R135: a buffer unmapped after two words have been read stops the engine at the third. -/
theorem test_csum_unmapped_in_a_run :
    let s : State := { ready 0x2000 0 32 with rivals := [{ after := 2, act := .remap [⟨0x2000, 32, true, true⟩] }] }
    (∀ k < 2, admits .read (holesAt s k) (s.src.toNat + 8 * k) = true) ∧
    admits .read (holesAt s 2) (s.src.toNat + 8 * 2) = false ∧
    stopOf (exec .csum s) = some (.stuckAccess .read 0x2010) := by decide

/-- R49 (c): write protection stops a copy at its first write, and no CSUM; and a page that may only be written stops reads. -/
theorem test_write_protection :
    let s : State := { ready 0x2000 0x3000 32 with holes := [⟨0x3000, 0x1000, false, true⟩] }
    stopOf (exec .copyB s) = some (.stuckAccess .write 0x3000) ∧
    after (exec .csum { s with src := 0x3000 }) (fun t => t.status.ok) = some true ∧
    admits .write [⟨0x3000, 0x1000, true, false⟩] 0x3000 = true ∧
    admits .read [⟨0x3000, 0x1000, true, false⟩] 0x3000 = false := by decide

/-- Buffers that touch (DST = SRC + LEN), either way round, and empty buffers at one address. -/
theorem test_witness_CopyWritesWordsAndFolds :
    ∀ s ∈ [ready 0x2000 0x2020 32, ready 0x2020 0x2000 32, ready 0x2000 0x2000 0],
      s.len.toNat < 2 ^ 22 ∧ s.len.toNat % 32 = 0 ∧ s.src.toNat % 16 = 0 ∧ s.dst.toNat % 16 = 0 ∧
      s.src.toNat + s.len.toNat ≤ 2 ^ 64 ∧ s.dst.toNat + s.len.toNat ≤ 2 ^ 64 ∧
      (s.len = 0 ∨ s.src.toNat + s.len.toNat ≤ s.dst.toNat ∨ s.dst.toNat + s.len.toNat ≤ s.src.toNat) ∧
      hostKeeps true s := by decide

/-- Both ends of a copied buffer, and the bytes on either side (R105); the checks and R48 hold by `test_ready_keeps`. -/
theorem test_witness_CopyIsExact :
    (0 : Nat) < (ready 0x2000 0x3000 32).len.toNat ∧ 31 < (ready 0x2000 0x3000 32).len.toNat ∧
    0x2FFF < (ready 0x2000 0x3000 32).dst.toNat ∧
    (ready 0x2000 0x3000 32).dst.toNat + (ready 0x2000 0x3000 32).len.toNat ≤ 0x3020 ∧
    entryCheck true (ready 0x2000 0x3000 32) = none ∧ hostKeeps true (ready 0x2000 0x3000 32) := by decide

/-- 2.4: each clause at its boundary. -/
theorem test_witness_CopyFailsAtEntry :
    2 ^ 22 ≤ (4194304 : Word).toNat ∧ (4194303 : Word).toNat < 2 ^ 22 ∧
    (16 : Word).toNat % 32 ≠ 0 ∧ (0x2008 : Word).toNat % 16 ≠ 0 ∧ (0x3008 : Word).toNat % 16 ≠ 0 ∧
    2 ^ 64 < (0xFFFFFFFFFFFFFFF0 : Word).toNat + (32 : Word).toNat ∧
    (0 < (32 : Word).toNat ∧ (0x2000 : Word).toNat < (0x2010 : Word).toNat + (32 : Word).toNat ∧
      (0x2010 : Word).toNat < (0x2000 : Word).toNat + (32 : Word).toNat) := by decide

theorem test_witness_ParametersAreNotArchitectural :
    ∀ copy ∈ passOf .copyF, entryCheck copy (ready 0x2000 0x3000 32) = none → hostKeeps copy (ready 0x2000 0x3000 32) := by
  intro copy h _
  cases h
  exact test_ready_keeps.2.1

theorem test_witness_CopyAgreesWithCsum :
    Instr.copyF ∈ [Instr.copyB, .copyW, .copyF] ∧ entryCheck true (ready 0x400000 0x800000 4194272) = none ∧
    hostKeeps true (ready 0x400000 0x800000 4194272) := ⟨by decide, test_ready_keeps_largest⟩

/-- The destination may be read after the copy; where it may only be written, the copy completes and a CSUM over it is stuck. -/
theorem test_witness_CopyAgreesWithCsum_destination :
    let s : State := { ready 0x2000 0x3000 32 with holes := [⟨0x3000, 32, true, false⟩] }
    after (exec .copyF (ready 0x2000 0x3000 32)) (fun t => decide (bufferAdmitted .read t.holes 0x3000 4)) = some true ∧
    hostKeeps true s ∧
    after (exec .copyF s) (fun t => stopOf (exec .csum { t with src := t.dst })) = some (some (.stuckAccess .read 0x3000)) :=
  ⟨by decide, by decide, by decide⟩

/-- Another agent changes the second source word before it is read: the copy and its sum follow. -/
theorem test_witness_RacedCopyMatchesItsChecksum :
    let s : State := { ready 0x2000 0x3000 32 with
      rivals := [{ after := 1, act := .write 0x2008 7 }, { after := 2, act := .write 0x2000 9 }] }
    entryCheck true s = none ∧
    (∀ r ∈ s.rivals, ∀ a ∈ actWrites r.act, a < s.dst.toNat ∨ s.dst.toNat + s.len.toNat ≤ a) ∧
    after (exec .copyB s) (fun t => (Memory.wordsAt t.mem 0x3000 4, t.out)) =
      some ([0, 7, 2, 3], { a1 := 8, b1 := 9, a2 := 6, b2 := 9 }) := by decide

/-- Program P2's copy, with other acts armed and 0x0807060504030201 in the second destination word. -/
def raced (rivals : List Rival) : State :=
  { ready 0x2000 0x3000 32 with
    mem := memoryOfWords [(0x2000, 0), (0x2008, 1), (0x2010, 2), (0x2018, 3), (0x3000, 0xAA), (0x3008, 0x0807060504030201)]
    rivals := rivals }

/-- The second destination word is read before its write is performed, and after; its write, access number 5, is issued before
both reads. The source's last word is read in between. -/
theorem test_witness_RacingReadSeesOldOrNewWord :
    let s (moment : Nat) : State := raced ([{ after := 6, act := .read 0x2018 }] ++ (readOfWord moment 0x3008 ++
      [{ after := 6, act := .perform 0x3008 }]))
    entryCheck true (s 6) = none ∧ (0x3008 : Word).toNat % 8 = 0 ∧
    (∀ r ∈ (s 6).rivals, ∀ k < 8, actWrites r.act ≠ some (0x3008 + k)) ∧
    after (exec .copyW (s 6)) (fun t => t.observed) = some [3, 1, 2, 3, 4, 5, 6, 7, 8] ∧
    after (exec .copyW (raced ({ after := 6, act := .perform 0x3008 } :: readOfWord 6 0x3008))) (fun t => t.observed) =
      some [1, 0, 0, 0, 0, 0, 0, 0] :=
  ⟨by decide, by decide, by decide, by decide, by decide⟩

/-- R30 (c): data memory performs no write before the engine has issued it, and each not performed earlier at completion. -/
theorem test_perform_too_early :
    after (exec .copyW (raced ({ after := 5, act := .perform 0x3008 } :: readOfWord 7 0x3008)))
      (fun t => (t.observed, Memory.wordsAt t.mem 0x3000 4)) = some ([1, 2, 3, 4, 5, 6, 7, 8], [0, 1, 2, 3]) := by decide

/-- R45: the second word is seen new while the first is still old. -/
theorem test_witness_WritesBecomeVisibleInAnyOrder :
    let s := raced ({ after := 8, act := .perform (0x3000 + BitVec.ofNat 64 (8 * 1)) } ::
      (readOfWord 8 (0x3000 + BitVec.ofNat 64 (8 * 1)) ++ readOfWord 8 (0x3000 + BitVec.ofNat 64 (8 * 0))))
    entryCheck true s = none ∧ buffersValid true s ∧ 8 = 2 * wordCount s.len ∧ 1 < wordCount s.len ∧
    after (exec .copyF s) (fun t => t.observed) = some [1, 0, 0, 0, 0, 0, 0, 0, 0xAA, 0, 0, 0, 0, 0, 0, 0] :=
  ⟨by decide, by decide, by decide, by decide, by decide⟩

/-- A destination of which only the last word may not be written. -/
theorem test_witness_CopyStuckAtHole :
    let s : State := { ready 0x2000 0x3000 32 with holes := [⟨0x301F, 1, false, true⟩] }
    entryCheck true s = none ∧ passCoversBlock true s = false ∧ (∀ r ∈ s.rivals, actRemaps r.act = none) ∧
    ¬ buffersAdmitted true s s.holes := by decide

/-- Both clauses: the destination unmapped before its last write, access number 7, and after it. -/
theorem test_witness_PassStopsAtFirstRefusedAccess :
    let unmapped (k : Nat) : State :=
      { ready 0x2000 0x3000 32 with rivals := [{ after := k, act := .remap [⟨0x3000, 32, true, true⟩] }] }
    passOf .copyF = some true ∧ entryCheck true (unmapped 7) = none ∧ passCoversBlock true (unmapped 7) = false ∧
    firstRefused (unmapped 7) 0 (passAccesses true (unmapped 7)) = some (.write, 0x3018) ∧
    firstRefused (unmapped 8) 0 (passAccesses true (unmapped 8)) = none := by decide

/-- R44: the canonical orders of 95_test_vectors.md 2.6 for LEN = 64, with P_CHUNK_WORDS = 4 and 8. -/
theorem test_access_order :
    let s := ready 0x2000 0x3000 64
    let eight : State := { s with platform := { s.platform with chunkWords := .eight } }
    passAccesses true s =
      [(.read, 0x2000), (.read, 0x2008), (.read, 0x2010), (.read, 0x2018),
       (.write, 0x3000), (.write, 0x3008), (.write, 0x3010), (.write, 0x3018),
       (.read, 0x2020), (.read, 0x2028), (.read, 0x2030), (.read, 0x2038),
       (.write, 0x3020), (.write, 0x3028), (.write, 0x3030), (.write, 0x3038)] ∧
    passAccesses true eight = wordAccesses .read 0x2000 8 ++ wordAccesses .write 0x3000 8 := by decide

/-- A source that ends one byte into the block, and a destination that begins at its last slot. -/
theorem test_witness_BufferOverBlockRefused :
    let visible (b : Word) (s : State) : State := { s with platform := { s.platform with blockInDataSpace := true, base := b } }
    let s := visible 0x2018 (ready 0x2000 0 32)
    let u := visible 0x2F10 (ready 0x2000 0x3000 32)
    (passOf .csum = some false ∧ entryCheck false s = none ∧ s.platform.blockInDataSpace = true ∧ 0 < s.len.toNat ∧
      s.src.toNat < s.platform.base.toNat + 256 ∧ s.platform.base.toNat < s.src.toNat + s.len.toNat) ∧
    (passOf .copyB = some true ∧ entryCheck true u = none ∧ u.platform.blockInDataSpace = true ∧ 0 < u.len.toNat ∧
      u.dst.toNat < u.platform.base.toNat + 256 ∧ u.platform.base.toNat < u.dst.toNat + u.len.toNat) := by decide

theorem test_witness_ManualStreamEqualsFold :
    4 * ([{ w0 := 0, w1 := 1, w2 := 2, w3 := 3 }, { w0 := 4, w1 := 5, w2 := 6, w3 := 7 }] : List WordGroup).length <
      2 ^ 19 := by decide

theorem test_witness_ChecksumProgramReturnsFold :
    entryCheck false { State.reset with src := 0x2000, len := 32 } = none ∧
    hostKeeps false { State.reset with src := 0x2000, len := 32 } := by decide

end Sys2Proof.Tests
end

namespace Sys2Proof.Machine

/-! ### O49: setting the four parameters of R7 that choose an implementation commutes with every command -/

/-- The state with P_CHUNK_WORDS, P_NT_STORE, P_HAS_VECTOR and P_HAS_WARM set (R7). -/
def withParameters (cw : ChunkWords) (nt vec warm : Bool) (s : State) : State :=
  { s with platform := { s.platform with chunkWords := cw, ntStore := nt, hasVector := vec, hasWarm := warm } }

section
variable (cw : ChunkWords) (nt vec warm : Bool)

/-- The entry checks read SRC, DST and LEN only (R90, R98). -/
theorem entryCheck_withParameters (copy : Bool) (s : State) :
    entryCheck copy (withParameters cw nt vec warm s) = entryCheck copy s := rfl

/-- R48 speaks of the buffers, of what data memory admits and of other agents, and R42 of BASE: of none of the four. -/
theorem hostKeeps_withParameters (copy : Bool) (s : State) :
    hostKeeps copy (withParameters cw nt vec warm s) ↔ hostKeeps copy s := Iff.rfl

/-- A pass for which the host keeps R48 has one result however it is cut into chunks (R44): neither its failure at entry nor
`streamPass_quiet` mentions a parameter. -/
theorem streamPass_withParameters {copy : Bool} {s : State} (hk : entryCheck copy s = none → hostKeeps copy s) :
    streamPass copy (withParameters cw nt vec warm s) =
      andThen (streamPass copy s) fun t => .next (withParameters cw nt vec warm t) := by
  have hc' := entryCheck_withParameters cw nt vec warm copy s
  cases hc : entryCheck copy s with
  | some code =>
    rw [streamPass_fail hc, streamPass_fail (hc'.trans hc)]
    rfl
  | none =>
    have hk' := (hostKeeps_withParameters cw nt vec warm copy s).2 (hk hc)
    rw [streamPass_quiet hc (hk hc), streamPass_quiet (hc'.trans hc) hk']
    rfl

/-- A command that makes no pass over memory reads no parameter. -/
theorem exec_withParameters_of_no_pass {i : Instr} (hi : passOf i = none) (s : State) :
    exec i (withParameters cw nt vec warm s) = andThen (exec i s) fun t => .next (withParameters cw nt vec warm t) := by
  cases i <;> simp only [passOf, reduceCtorEq] at hi
  case accUpd =>
    change execAccUpd _ = andThen (execAccUpd s) _
    cases hf : streamFull s.cnt <;> simp [execAccUpd, withParameters, hf] <;> rfl
  all_goals rfl

end

/-- Settles O49: a pass by `streamPass_withParameters`, any other command by `exec_withParameters_of_no_pass`. -/
theorem parametersAreNotArchitectural : Obligations.ParametersAreNotArchitectural := by
  intro i s cw nt vec warm hk
  change exec i (withParameters cw nt vec warm s) = andThen (exec i s) fun t => .next (withParameters cw nt vec warm t)
  cases hp : passOf i with
  | none => exact exec_withParameters_of_no_pass cw nt vec warm hp s
  | some copy =>
    rw [exec_pass hp, exec_pass hp]
    exact streamPass_withParameters cw nt vec warm (hk copy hp)

end Sys2Proof.Machine

namespace Sys2Proof.Machine

/-! ### The step and the control port (R17, R26, R28, R31) -/

theorem step_eq_handle {s : State} {ev : Event} {rest : List Event} (h : s.inbox = ev :: rest) :
    step s = handle ev { s with inbox := rest } := by
  rw [step, takeEvent, h]

theorem step_idle {s : State} (h : s.inbox = []) : step s = .next s := by
  rw [step, takeEvent, h]

theorem runCommandWord_of_decode {cw : CommandWord} {i : Instr} (h : decode cw = .ok i) (s : State) :
    runCommandWord cw s = exec i s := by
  rw [runCommandWord, h]

/-- Settles O6: the event's handler runs the word it decodes; with no event, `step_idle`. -/
theorem stepRunsDecodedCommand : Obligations.StepRunsDecodedCommand := by
  refine ⟨fun s data rest i hs hd => ?_, fun s hs => step_idle hs⟩
  rw [step_eq_handle hs]
  exact runCommandWord_of_decode hd _

theorem decode_of_decodeTableWord {nbits w : Nat} {i : Instr} (h : decodeTableWord nbits w = some i) :
    decode (commandWordOf (tableData nbits w)) = .ok i := by
  rw [decodeTableWord] at h
  split at h
  · rename_i hd
    rw [hd, Option.some.inj h]
  · cases h

/-- Settles O7: the placed event is taken next, and the decoder reads the table word from it. -/
theorem placedWordRunsNext : Obligations.PlacedWordRunsNext := by
  intro s nbits w i h
  exact runCommandWord_of_decode (decode_of_decodeTableWord h) s

theorem slotAt_eq_none {size off : Nat} (h : size ≠ 8 ∨ off % 8 ≠ 0 ∨ 0xF8 < off) : slotAt size off = none := by
  have hu : accessSupported size off = false := by
    simp only [accessSupported, Bool.and_eq_false_iff, beq_eq_false_iff_ne, decide_eq_false_iff_not]
    omega
  rw [slotAt, hu]
  rfl

/-- Settles O8: such an access names no slot. -/
theorem unsupportedAccessRefused : Obligations.UnsupportedAccessRefused := by
  intro s size off data h
  simp only [issue_eq, handle, portWrite, portRead, slotAt_eq_none h, and_self]

/-- A read of a slot's offset records the slot's value. -/
theorem issue_rd_of_slotAt {size off : Nat} {slot : Slot} (h : slotAt size off = some slot) (s : State) :
    issue (.rd size off) s = .next { s with replies := s.replies ++ [readSlot s slot] } := by
  rw [issue_eq, handle, portRead, h]

/-- A write of a slot's offset writes the slot, unless it is CMD. -/
theorem issue_wr_of_slotAt {size off : Nat} {slot : Slot} (h : slotAt size off = some slot) (hc : slot ≠ .cmd) (v : Word)
    (s : State) : issue (.wr size off v) s = .next (writeSlot s slot v) := by
  rw [issue_eq, handle, portWrite, h]
  cases slot with
  | cmd => exact absurd rfl hc
  | _ => rfl

/-- The slots stand eight bytes apart, in the order of R16. -/
theorem slotAt_of_getElem? {i : Nat} {slot : Slot} (h : slotTable[i]? = some slot) : slotAt 8 (8 * i) = some slot := by
  have hi : i < 32 := (List.getElem?_eq_some_iff.1 h).1
  have hs : accessSupported 8 (8 * i) = true := by
    simp only [accessSupported, beq_self_eq_true, Bool.true_and, Bool.and_eq_true, beq_iff_eq, decide_eq_true_eq]
    omega
  rw [slotAt, if_pos hs, Nat.mul_div_cancel_left _ (by decide), h]

/-- Settles O9: the listed pairs are the slots of R16, each with its offset and its value. -/
theorem readReturnsRegisterAndChangesNothing : Obligations.ReadReturnsRegisterAndChangesNothing := by
  intro s v off h
  rw [BitVec.ofNat_toNat] at h
  change (off, v) ∈ slotTable.zipIdx.map fun p => (8 * p.2, readSlot s p.1) at h
  obtain ⟨⟨slot, i⟩, hp, heq⟩ := List.mem_map.1 h
  cases heq
  exact issue_rd_of_slotAt (slotAt_of_getElem? (List.mem_zipIdx_iff_getElem?.1 hp)) s

/-- Settles O10: the eleven offsets name the eleven read-write slots. -/
theorem operandWriteReplacesRegister : Obligations.OperandWriteReplacesRegister := fun s v =>
  ⟨issue_wr_of_slotAt (slot := .src) rfl (by decide) v s, issue_wr_of_slotAt (slot := .dst) rfl (by decide) v s,
    issue_wr_of_slotAt (slot := .len) rfl (by decide) v s, issue_wr_of_slotAt (slot := .w 0) rfl (by decide) v s,
    issue_wr_of_slotAt (slot := .w 1) rfl (by decide) v s, issue_wr_of_slotAt (slot := .w 2) rfl (by decide) v s,
    issue_wr_of_slotAt (slot := .w 3) rfl (by decide) v s, issue_wr_of_slotAt (slot := .ref .a1) rfl (by decide) v s,
    issue_wr_of_slotAt (slot := .ref .a2) rfl (by decide) v s, issue_wr_of_slotAt (slot := .ref .b1) rfl (by decide) v s,
    issue_wr_of_slotAt (slot := .ref .b2) rfl (by decide) v s⟩

/-- R17 (c): the slots a host write does not change, CMD aside. -/
def readOnlySlot : Slot → Bool
  | .status | .cnt | .acc _ | .out _ | .txt _ | .reserved => true
  | .cmd | .src | .dst | .len | .w _ | .ref _ => false

theorem writeSlot_of_readOnly {slot : Slot} (h : readOnlySlot slot = true) (s : State) (v : Word) :
    writeSlot s slot v = s := by
  cases slot with
  | src | dst | len | w | ref => cases h
  | _ => rfl

/-- Settles O11: each of the offsets names a slot that a write does not change. -/
theorem readOnlyWriteIgnored : Obligations.ReadOnlyWriteIgnored := by
  intro s v off h
  have hslot : (slotAt 8 off).any readOnlySlot = true := by
    revert off
    decide
  obtain ⟨slot, hs, hr⟩ := (Option.any_eq_true _ _).1 hslot
  rw [issue_wr_of_slotAt hs (by rintro rfl; cases hr), writeSlot_of_readOnly hr]

/-- Settles O12: STATUS is its fields appended, so the sum of their values at their weights, for each value of ERR. -/
theorem statusWordLayout : Obligations.StatusWordLayout := by
  rintro ⟨ok, err, eq⟩
  have hsum : (statusWord ⟨ok, err, eq⟩).toNat = ok.toNat + 2 * (errCode err).toNat + 8 * eq.toNat := by
    simp only [statusWord, toNat_append_eq, BitVec.toNat_ofBool, show (0 : BitVec 60).toNat = 0 from rfl]
    omega
  rw [hsum]
  rcases err with _ | _ | _ | _ <;> rfl

/-- Settles O13: the literals of `State.reset` are R31's. -/
theorem resetLeavesStatedValues : Obligations.ResetLeavesStatedValues := ⟨rfl, rfl, rfl, rfl, rfl, rfl⟩

/-! ### The effects of a command, named -/

/-- What a command that answers a next state has done to `s`: it failed (R115), its pass completed (R89, R99), or the one effect
of its kind. -/
inductive Effect (s : State) : Instr → State → Prop
  | failed {i : Instr} (code : FailCode) : Effect s i (raiseFail code s)
  | passed {i : Instr} {copy : Bool} {mem : List Host.Cell} {holes : List Region} {observed : List Byte} (sum : Accum)
      (isPass : passOf i = some copy) (checked : entryCheck copy s = none) (wf : Memory.wf s.mem → Memory.wf mem)
      (admission : noRemap s.rivals → holes = s.holes) :
      Effect s i { s with mem := mem, holes := holes, rivals := [], observed := observed, acc := sum, out := sum,
                          cnt := BitVec.ofNat 19 (wordCount s.len), status := okStatus s.status, engine := none }
  | accInit : Effect s .accInit (succeed { s with acc := Accum.ident, cnt := 0 })
  | accUpd : Effect s .accUpd (succeed { s with acc := upd4 s.acc s.w, cnt := s.cnt + 4 })
  | accPut : Effect s .accPut (succeed { s with out := s.acc })
  | accCmpeq : Effect s .accCmpeq (succeed { s with status := eqFlag s.out s.ref s.status })
  | renderOut : Effect s .renderOut (renderInto s.out s)
  | renderRef : Effect s .renderRef (renderInto s.ref s)
  | renderAcc : Effect s .renderAcc (renderInto s.acc s)

/-- Every next state of a command is one of its effects: `exec_next`, and `exec_pass_next` for a pass. -/
theorem exec_effect {i : Instr} {s t : State} (h : exec i s = .next t) : Effect s i t := by
  rcases exec_next h with ⟨code, rfl, -⟩ | ⟨copy, hp, hn⟩ | ⟨rfl, rfl⟩ | ⟨rfl, -, rfl⟩ | ⟨rfl, rfl⟩ | ⟨rfl, rfl⟩ |
    ⟨rfl, rfl⟩ | ⟨rfl, rfl⟩ | ⟨rfl, rfl⟩
  · exact .failed code
  · obtain ⟨hw, hh, -, vs, -, ht⟩ := exec_pass_next hp hn h
    rw [ht]
    exact .passed (fold vs) hp hn hw hh
  · exact .accInit
  · exact .accUpd
  · exact .accPut
  · exact .accCmpeq
  · exact .renderOut
  · exact .renderRef
  · exact .renderAcc

/-! ### What each event can answer -/

/-- A control-port write: refused, a command, or a write of another slot. -/
theorem portWrite_next {size off : Nat} {data : Word} {s t : State} (h : portWrite size off data s = .next t) :
    runCommandWord (commandWordOf data) s = .next t ∨ ∃ slot, t = writeSlot s slot data := by
  rw [portWrite] at h
  split at h
  · cases h
  · exact .inl h
  · cases h
    exact .inr ⟨_, rfl⟩

/-- A control-port read only records what it returns. -/
theorem portRead_next {size off : Nat} {s t : State} (h : portRead size off s = .next t) :
    ∃ v, t = { s with replies := s.replies ++ [v] } := by
  rw [portRead] at h
  split at h <;> cases h
  exact ⟨_, rfl⟩

/-- A host write changes operand registers and their marks only. -/
theorem writeSlot_eq (s : State) (slot : Slot) (v : Word) : writeSlot s slot v =
    { s with src := (writeSlot s slot v).src, dst := (writeSlot s slot v).dst, len := (writeSlot s slot v).len,
             w := (writeSlot s slot v).w, ref := (writeSlot s slot v).ref, written := (writeSlot s slot v).written } := by
  cases slot <;> rfl

theorem wf_mixWords {s : State} (h : Memory.wf s.mem) (n : Nat) : Memory.wf (mixWords s n) := by
  induction n with
  | zero => exact h
  | succ n ih =>
    simp only [mixWords]
    split
    · exact Memory.wf_writeWord _ _ ih
    · exact ih

/-- Reset during a command (R129): the block's reset, over a memory that is still canonical. -/
theorem abandonCommand_next {cw : CommandWord} {s t : State} (h : abandonCommand cw s = .next t) :
    ∃ m n, t = resetBlock { s with mem := m, draws := n } ∧ (Memory.wf s.mem → Memory.wf m) := by
  have hreset : ∀ {u : State}, u = resetBlock s →
      ∃ m n, u = resetBlock { s with mem := m, draws := n } ∧ (Memory.wf s.mem → Memory.wf m) :=
    fun hu => ⟨s.mem, s.draws, hu, id⟩
  simp only [abandonCommand] at h
  split at h
  · exact hreset (Host.Outcome.next.inj h).symm
  split at h
  · exact hreset (Host.Outcome.next.inj h).symm
  split at h
  · exact hreset (Host.Outcome.next.inj h).symm
  split at h
  · cases h
  split at h
  · exact ⟨_, _, (Host.Outcome.next.inj h).symm, fun hm => wf_mixWords hm _⟩
  · exact hreset (Host.Outcome.next.inj h).symm

/-! ### The invariant (R25, R27, R30, R36) -/

/-- What the invariant says of CNT after a pass over whole groups (R25). -/
theorem toNat_ofNat_mod_four {n : Nat} (h : n % 4 = 0) : (BitVec.ofNat 19 n).toNat % 4 = 0 := by
  rw [BitVec.toNat_ofNat]
  omega

/-- And after one more group (R80). -/
theorem toNat_add_four_mod_four {cnt : BitVec 19} (h : cnt.toNat % 4 = 0) : (cnt + 4).toNat % 4 = 0 := by
  rw [BitVec.toNat_add, show (4 : BitVec 19).toNat = 4 from rfl]
  omega

theorem inv_raiseFail {s : State} (h : s.Inv) (code : FailCode) : (raiseFail code s).Inv := by
  obtain ⟨hm, hc, he, -⟩ := h
  exact ⟨hm, hc, he, fun hok => nomatch hok⟩

theorem inv_resetBlock {s : State} (h : Memory.wf s.mem) : (resetBlock s).Inv := ⟨h, rfl, rfl, fun _ => rfl⟩

/-- Every command keeps the invariant: each of its effects leaves memory canonical, CNT at whole groups and the engine idle. -/
theorem exec_keeps_inv {i : Instr} {s t : State} (hs : s.Inv) (h : exec i s = .next t) : t.Inv := by
  obtain ⟨hm, hc, he, -⟩ := id hs
  cases exec_effect h with
  | failed code => exact inv_raiseFail hs code
  | passed sum isPass checked wf admission =>
    obtain ⟨h4, -⟩ := entryCheck_none checked
    exact ⟨wf hm, toNat_ofNat_mod_four (by omega), rfl, fun _ => rfl⟩
  | accInit => exact ⟨hm, rfl, he, fun _ => rfl⟩
  | accUpd => exact ⟨hm, toNat_add_four_mod_four hc, he, fun _ => rfl⟩
  | accPut | accCmpeq | renderOut | renderRef | renderAcc => exact ⟨hm, hc, he, fun _ => rfl⟩

theorem runCommandWord_keeps_inv {cw : CommandWord} {s t : State} (hs : s.Inv) (h : runCommandWord cw s = .next t) : t.Inv := by
  rcases runCommandWord_next h with ⟨i, -, hi⟩ | ⟨-, rfl⟩
  · exact exec_keeps_inv hs hi
  · exact inv_raiseFail hs _

/-- Every event keeps the invariant. -/
theorem handle_keeps_inv {ev : Event} {s t : State} (hs : s.Inv) (h : handle ev s = .next t) : t.Inv := by
  obtain ⟨hm, hc, he, hok⟩ := id hs
  cases ev with
  | wr size off data =>
    rcases portWrite_next h with h | ⟨slot, rfl⟩
    · exact runCommandWord_keeps_inv hs h
    · rw [writeSlot_eq]
      exact hs
  | rd size off =>
    obtain ⟨v, rfl⟩ := portRead_next h
    exact hs
  | reset =>
    cases h
    exact inv_resetBlock hm
  | cmdReset data =>
    obtain ⟨m, n, rfl, hw⟩ := abandonCommand_next h
    exact inv_resetBlock (hw hm)
  | agent act =>
    cases h
    exact ⟨wf_actMem [] act hm, hc, he, hok⟩
  | race acts =>
    cases h
    exact hs

/-- Settles O16: a step handles one event, if there is one, and every event keeps the invariant. -/
theorem everyStepKeepsInvariant : Obligations.EveryStepKeepsInvariant := by
  intro s t hs h
  cases hi : s.inbox with
  | nil =>
    rw [step_idle hi] at h
    cases h
    exact hs
  | cons ev rest =>
    rw [step_eq_handle hi] at h
    exact handle_keeps_inv (s := { s with inbox := rest }) hs h

/-- Settles O17: the reset state is what `inv_resetBlock` leaves over empty memory. -/
theorem resetMeetsInvariant : Obligations.ResetMeetsInvariant := inv_resetBlock (s := State.reset) List.Pairwise.nil

/-! ### STATUS after a command (R26, R27) -/

/-- STATUS after a command: a failure's, a success's, or ACC.CMPEQ's; EQ is written by the last only. -/
theorem exec_status {i : Instr} {s t : State} (h : exec i s = .next t) :
    (∃ code, t.status = failStatus code s.status) ∨ t.status = okStatus s.status ∨
    (i = .accCmpeq ∧ t.status = okStatus (eqFlag s.out s.ref s.status)) := by
  cases exec_effect h with
  | failed code => exact .inl ⟨code, rfl⟩
  | accCmpeq => exact .inr (.inr ⟨rfl, rfl⟩)
  | passed | accInit | accUpd | accPut | renderOut | renderRef | renderAcc => exact .inr (.inl rfl)

/-- The same of a write to CMD, illegal words included (R114). -/
theorem runCommandWord_status {cw : CommandWord} {s t : State} (h : runCommandWord cw s = .next t) :
    (∃ code, t.status = failStatus code s.status) ∨ t.status = okStatus s.status ∨
    (decode cw = .ok .accCmpeq ∧ t.status = okStatus (eqFlag s.out s.ref s.status)) := by
  rcases runCommandWord_next h with ⟨i, hd, hi⟩ | ⟨-, rfl⟩
  · rw [hd]
    simpa using exec_status hi
  · exact .inl ⟨_, rfl⟩

/-- Settles O18: a failure clears OK and sets ERR, every success does the opposite, and reset clears both. -/
theorem okExactlyWhenNoError : Obligations.OkExactlyWhenNoError := by
  refine ⟨fun s t data h => ?_, fun s t h => ?_⟩
  · rcases runCommandWord_status (show runCommandWord _ s = _ from h) with ⟨code, ht⟩ | ht | ⟨-, ht⟩ <;> rw [ht]
    · simp [failStatus]
    · simp [okStatus]
    · simp [okStatus]
  · cases h
    exact ⟨rfl, rfl⟩

/-- Settles O19: of the three effects on STATUS only ACC.CMPEQ's touches EQ. -/
theorem onlyCmpeqWritesEq : Obligations.OnlyCmpeqWritesEq := by
  intro s t data h hne
  rcases runCommandWord_status (show runCommandWord _ s = _ from h) with ⟨code, ht⟩ | ht | ⟨hd, -⟩
  · rw [ht]
    rfl
  · rw [ht]
    rfl
  · exact absurd hd hne

/-! ### Which registers a command writes (R16) -/

/-- Settles O21: no effect touches the operand registers, and only a pass, in which an armed act remaps memory, changes what
memory admits. -/
theorem commandsKeepOperandRegisters : Obligations.CommandsKeepOperandRegisters := by
  intro i s t h
  cases exec_effect h with
  | passed sum isPass checked wf admission => exact ⟨rfl, rfl, rfl, rfl, rfl, rfl, rfl, rfl, rfl, admission⟩
  | failed | accInit | accUpd | accPut | accCmpeq | renderOut | renderRef | renderAcc =>
    exact ⟨rfl, rfl, rfl, rfl, rfl, rfl, rfl, rfl, rfl, fun _ => rfl⟩

theorem mem_of_passOf {i : Instr} {copy : Bool} (h : passOf i = some copy) : i ∈ [Instr.csum, .copyB, .copyW, .copyF] := by
  cases i <;> simp [passOf] at h ⊢

/-- Settles O22: a pass, one of the four commands the map allows, writes OUT, ACC and CNT; any other effect leaves a register
alone or is that of a command the map names. -/
theorem resultRegistersWrittenOnlyByTheirCommands : Obligations.ResultRegistersWrittenOnlyByTheirCommands := by
  intro i s t h
  cases exec_effect h with
  | passed sum isPass checked wf admission =>
    have hi := mem_of_passOf isPass
    exact ⟨fun _ => ⟨rfl, rfl⟩, fun hn => absurd (List.mem_cons_of_mem _ hi) hn,
      fun hn => absurd (List.mem_cons_of_mem _ (List.mem_cons_of_mem _ hi)) hn⟩
  | failed code => exact ⟨fun _ => ⟨rfl, rfl⟩, fun _ => rfl, fun _ => ⟨rfl, rfl⟩⟩
  | accInit | accUpd => exact ⟨fun _ => ⟨rfl, rfl⟩, fun _ => rfl, fun hn => absurd (by decide) hn⟩
  | accPut => exact ⟨fun _ => ⟨rfl, rfl⟩, fun hn => absurd (by decide) hn, fun _ => ⟨rfl, rfl⟩⟩
  | accCmpeq => exact ⟨fun _ => ⟨rfl, rfl⟩, fun _ => rfl, fun _ => ⟨rfl, rfl⟩⟩
  | renderOut | renderRef | renderAcc => exact ⟨fun hn => absurd (by decide) hn, fun _ => rfl, fun _ => ⟨rfl, rfl⟩⟩

/-! ### Registers nothing has written (R31, R138) -/

/-- Going on from forgotten registers, where the second part does not see the difference. -/
theorem andThen_forgetInOutcome {o : StepResult} {f g : State → StepResult}
    (h : ∀ t, o = .next t → f (forgetUnwritten t) = forgetInOutcome (g t)) :
    andThen (forgetInOutcome o) f = forgetInOutcome (andThen o g) := by
  cases o with
  | next t => exact h t rfl
  | fault r => rfl
  | refused r => rfl

theorem EngineOnly.written {s t : State} (h : EngineOnly s t) : t.written = s.written := by rw [h]

theorem forgetUnwritten_src {s : State} (h : s.written.src = true) : (forgetUnwritten s).src = s.src := by
  simp [forgetUnwritten, ifWritten, h]

theorem forgetUnwritten_dst {s : State} (h : s.written.dst = true) : (forgetUnwritten s).dst = s.dst := by
  simp [forgetUnwritten, ifWritten, h]

theorem forgetUnwritten_len {s : State} (h : s.written.len = true) : (forgetUnwritten s).len = s.len := by
  simp [forgetUnwritten, ifWritten, h]

theorem forgetUnwritten_w {s : State} (h : (s.written.w0 && s.written.w1 && s.written.w2 && s.written.w3) = true) :
    (forgetUnwritten s).w = s.w := by
  simp only [Bool.and_eq_true, and_assoc] at h
  obtain ⟨h0, h1, h2, h3⟩ := h
  simp [forgetUnwritten, ifWritten, h0, h1, h2, h3]

theorem forgetUnwritten_ref {s : State}
    (h : (s.written.refA1 && s.written.refA2 && s.written.refB1 && s.written.refB2) = true) :
    (forgetUnwritten s).ref = s.ref := by
  simp only [Bool.and_eq_true, and_assoc] at h
  obtain ⟨h0, h1, h2, h3⟩ := h
  simp [forgetUnwritten, ifWritten, h0, h1, h2, h3]

theorem fetchWord_forgetUnwritten (a : Nat) (s : State) :
    fetchWord a (forgetUnwritten s) = forgetInOutcome (fetchWord a s) := by
  simp only [fetchWord, show (settle (forgetUnwritten s)).holes = (settle s).holes from rfl]
  split <;> rfl

theorem storeWord_forgetUnwritten (a : Nat) (v : Word) (s : State) :
    storeWord a v (forgetUnwritten s) = forgetInOutcome (storeWord a v s) := by
  simp only [storeWord_eq, memWrite, show (settle (forgetUnwritten s)).holes = (settle s).holes from rfl]
  split <;> rfl

theorem fetchWords_forgetUnwritten (n a : Nat) (s : State) :
    fetchWords n a (forgetUnwritten s) = forgetInOutcome (fetchWords n a s) := by
  induction n generalizing a s with
  | zero => rfl
  | succ n ih =>
    rw [fetchWords, fetchWord_forgetUnwritten]
    exact andThen_forgetInOutcome fun t _ => ih _ t

theorem storeWords_forgetUnwritten (vs : List Word) (a : Nat) (s : State) :
    storeWords vs a (forgetUnwritten s) = forgetInOutcome (storeWords vs a s) := by
  induction vs generalizing a s with
  | nil => rfl
  | cons v vs ih =>
    rw [storeWords, storeWord_forgetUnwritten]
    exact andThen_forgetInOutcome fun t _ => ih _ t

/-- The registers a pass reads have been written: SRC and LEN, and for a copy DST (R138). -/
abbrev passOperandsWritten (copy : Bool) (s : State) : Prop :=
  s.written.src = true ∧ s.written.len = true ∧ (copy = true → s.written.dst = true)

theorem runChunk_forgetUnwritten {copy : Bool} {s : State} (hw : passOperandsWritten copy s) (g : Nat) :
    runChunk copy g (forgetUnwritten s) = forgetInOutcome (runChunk copy g s) := by
  obtain ⟨hsrc, -, hdst⟩ := hw
  rw [runChunk, forgetUnwritten_src hsrc]
  refine (congrArg (andThen · _) (fetchWords_forgetUnwritten _ _ s)).trans (andThen_forgetInOutcome fun s1 _ => ?_)
  cases copy with
  | false => rfl
  | true =>
    rw [forgetUnwritten_dst (hdst rfl)]
    exact (congrArg (andThen · _) (storeWords_forgetUnwritten _ _ (foldChunk s1))).trans
      (andThen_forgetInOutcome fun _ _ => rfl)

theorem runChunks_forgetUnwritten {copy : Bool} {gs : List Nat} {s : State} (hc : (engineOf s).chunk = [])
    (hw : passOperandsWritten copy s) :
    runChunks copy gs (forgetUnwritten s) = forgetInOutcome (runChunks copy gs s) := by
  induction gs generalizing s with
  | nil => rfl
  | cons g gs ih =>
    rw [runChunks, runChunk_forgetUnwritten hw]
    refine andThen_forgetInOutcome fun t ht => ?_
    obtain ⟨hp, _, -, ⟨_, _, he⟩, -⟩ := runChunk_next hc ht
    exact ih (by rw [he]) (by rwa [passOperandsWritten, hp.only.written])

theorem finishPass_forgetUnwritten {s : State} (h : s.written.len = true) :
    finishPass (forgetUnwritten s) = forgetUnwritten (finishPass s) := by
  simp only [finishPass, forgetUnwritten_len h]
  rfl

/-- A pass reads SRC, LEN and for a copy DST, and no other register that reset leaves unspecified. -/
theorem streamPass_forgetUnwritten {copy : Bool} {s : State} (hw : passOperandsWritten copy s) :
    streamPass copy (forgetUnwritten s) = forgetInOutcome (streamPass copy s) := by
  obtain ⟨hsrc, hlen, hdst⟩ := id hw
  have hS := forgetUnwritten_src hsrc
  have hL := forgetUnwritten_len hlen
  have hD : copy = true → (forgetUnwritten s).dst = s.dst := fun hc => forgetUnwritten_dst (hdst hc)
  have hP : (forgetUnwritten s).platform = s.platform := rfl
  have hentry : entryCheck copy (forgetUnwritten s) = entryCheck copy s := by
    cases copy <;> simp [entryCheck, hS, hL, hD]
  have hcover : passCoversBlock copy (forgetUnwritten s) = passCoversBlock copy s := by
    cases copy <;> simp [passCoversBlock, hS, hL, hD, hP]
  cases hc : entryCheck copy s with
  | some code =>
    rw [streamPass_fail hc, streamPass_fail (hentry.trans hc)]
    rfl
  | none =>
    simp only [streamPass, hentry, hc, hcover, hL, hP]
    split
    · rfl
    · refine (congrArg (andThen · _) (runChunks_forgetUnwritten (s := setEngine s freshEngine) rfl hw)).trans
        (andThen_forgetInOutcome fun t ht => congrArg Host.Outcome.next (finishPass_forgetUnwritten ?_))
      rw [(runChunks_next (s := setEngine s freshEngine) rfl ht).1.only.written]
      exact hlen

theorem passOperandsWritten_of_operandsWritten {i : Instr} {copy : Bool} {s : State} (hp : passOf i = some copy)
    (h : operandsWritten i s.written = true) : passOperandsWritten copy s := by
  cases i <;> simp only [passOf, Option.some.injEq, reduceCtorEq] at hp <;> subst hp <;>
    simp only [operandsWritten, Bool.and_eq_true] at h
  case csum =>
    obtain ⟨hsrc, hlen⟩ := h
    exact ⟨hsrc, hlen, nofun⟩
  all_goals
    obtain ⟨⟨hsrc, hdst⟩, hlen⟩ := h
    exact ⟨hsrc, hlen, fun _ => hdst⟩

/-- Forgetting the unwritten registers before a command is forgetting them after it, if the command's operands are written. -/
theorem exec_forgetUnwritten {i : Instr} {s : State} (h : operandsWritten i s.written = true) :
    exec i (forgetUnwritten s) = forgetInOutcome (exec i s) := by
  cases hp : passOf i with
  | some copy =>
    rw [exec_pass hp, exec_pass hp]
    exact streamPass_forgetUnwritten (passOperandsWritten_of_operandsWritten hp h)
  | none =>
    cases i <;> simp only [passOf, reduceCtorEq] at hp
    case accUpd =>
      have hupd : upd4 (forgetUnwritten s).acc (forgetUnwritten s).w = upd4 s.acc s.w := by
        rw [forgetUnwritten_w h]
        rfl
      simp only [exec, execAccUpd, hupd, show (forgetUnwritten s).cnt = s.cnt from rfl]
      split <;> rfl
    case accCmpeq =>
      have heq : eqFlag (forgetUnwritten s).out (forgetUnwritten s).ref (forgetUnwritten s).status =
          eqFlag s.out s.ref s.status := by
        rw [forgetUnwritten_ref h]
        rfl
      simp only [exec, execAccCmpeq, heq]
      rfl
    case renderRef =>
      rw [exec, exec, execRenderRef, execRenderRef, forgetUnwritten_ref h]
      rfl
    all_goals rfl

/-- Settles O24: the outcome with unwritten registers forgotten is that of the state with them forgotten, by
`exec_forgetUnwritten`. -/
theorem unwrittenValuesDoNotMatter : Obligations.UnwrittenValuesDoNotMatter := by
  intro i s s' h hs
  have hw : s.written = s'.written := congrArg (fun u => u.written) hs
  calc forgetInOutcome (exec i s) = exec i (forgetUnwritten s) := (exec_forgetUnwritten h).symm
    _ = exec i (forgetUnwritten s') := by rw [hs]
    _ = forgetInOutcome (exec i s') := exec_forgetUnwritten (hw ▸ h)

/-! ### The text in TXT (R29, R84, R85) -/

/-- The character of a digit (R85). -/
theorem hexDigit_toNat (d : BitVec 4) :
    (hexDigit d).toNat = if d.toNat ≤ 9 then 0x30 + d.toNat else 0x57 + d.toNat := by
  revert d
  decide

/-- Character `j` shows the digit of weight `16 ^ (15 - j)`. -/
theorem hexChar_toNat (v : Word) {j : Nat} (hj : j < 16) :
    (hexChar v j).toNat =
      if v.toNat / 16 ^ (15 - j) % 16 ≤ 9 then 0x30 + v.toNat / 16 ^ (15 - j) % 16
      else 0x57 + v.toNat / 16 ^ (15 - j) % 16 := by
  have hw : (2 : Nat) ^ (60 - 4 * j) = 16 ^ (15 - j) := by
    rw [show 60 - 4 * j = 4 * (15 - j) by omega, Nat.pow_mul]
  rw [hexChar, hexDigit_toNat, BitVec.extractLsb'_toNat, Nat.shiftRight_eq_div_pow, hw]

theorem hex16_length (v : Word) : (hex16 v).length = 16 := by simp [hex16]

theorem hex16_getD (v : Word) {j : Nat} (hj : j < 16) : (hex16 v).getD j 0 = hexChar v j := by
  simp [hex16, List.getD_eq_getElem?_getD, hj]

/-- The scalar whose digits stand at register `r` of TXT: two registers each, in the order a1, a2, b1, b2 (R84, R86). -/
def textScalar (a : Accum) (r : Nat) : Word :=
  if r < 2 then a.a1 else if r < 4 then a.a2 else if r < 6 then a.b1 else a.b2

/-- Eight characters to a register: those of `r` are half of the digits of its scalar. -/
theorem render_getD (a : Accum) {r k : Nat} (hr : r < 8) (hk : k < 8) :
    (render a).getD (8 * r + k) 0 = hexChar (textScalar a r) (8 * (r % 2) + k) := by
  rw [← hex16_getD _ (by omega)]
  have hlen := hex16_length
  unfold render textScalar
  split_ifs
  · rw [List.getD_append _ _ _ _ (by simp [hlen]; omega), List.getD_append _ _ _ _ (by simp [hlen]; omega),
      List.getD_append _ _ _ _ (by simp [hlen]; omega)]
    congr 1
    omega
  · rw [List.getD_append _ _ _ _ (by simp [hlen]; omega), List.getD_append _ _ _ _ (by simp [hlen]; omega),
      List.getD_append_right _ _ _ _ (by simp [hlen]; omega)]
    rw [hlen]
    congr 1
    omega
  · rw [List.getD_append _ _ _ _ (by simp [hlen]; omega), List.getD_append_right _ _ _ _ (by simp [hlen]; omega)]
    congr 1
    simp [hlen]
    omega
  · rw [List.getD_append_right _ _ _ _ (by simp [hlen]; omega)]
    congr 1
    simp [hlen]
    omega

theorem textRegOf_packText (t : List Byte) (r : Fin 8) : textRegOf (packText t) r = textReg t r.val := by
  fin_cases r <;> rfl

/-- Settles O36: byte `k` of a register is the character `render_getD` finds there. -/
theorem textCharacterPositions : Obligations.TextCharacterPositions := by
  intro a r k
  have hchar : byteOf (textRegOf (packText (render a)) r) k = hexChar (textScalar a r) (8 * (r.val % 2) + k.val) := by
    rw [textRegOf_packText, textReg, byteOf_wordOfBytes _ _ k.isLt, render_getD a r.isLt k.isLt]
  rw [← byteOf_toNat, hchar]
  exact hexChar_toNat _ (by omega)

/-! ### Any order of visibility (R45) -/

/-- Acts that only read leave memory and the writes outstanding alone, and see their bytes in order. -/
theorem seenBy_reads (m : List Host.Cell) (ws : List IssuedWrite) (moment : Nat) (as : List Word) (rs : List Rival) :
    seenBy m ws ((as.map fun a => { after := moment, act := .read a }) ++ rs) =
      as.map (fun a => Memory.byteAt m a.toNat) ++ seenBy m ws rs := by
  induction as with
  | nil => rfl
  | cons a as ih => exact congrArg (Memory.byteAt m a.toNat :: ·) ih

/-- Another agent that reads a word sees its eight bytes, lowest address first. -/
theorem seenBy_readOfWord (m : List Host.Cell) (ws : List IssuedWrite) (moment : Nat) {addr : Word}
    (h : addr.toNat + 8 ≤ 2 ^ 64) (rs : List Rival) :
    seenBy m ws (readOfWord moment addr ++ rs) =
      (List.range 8).map (fun b => Memory.byteAt m (addr.toNat + b)) ++ seenBy m ws rs := by
  have hr : readOfWord moment addr = ((List.range 8).map fun k => addr + BitVec.ofNat 64 k).map
      fun a => { after := moment, act := .read a } := by
    rw [List.map_map]
    rfl
  rw [hr, seenBy_reads, List.map_map]
  congr 1
  refine List.map_congr_left fun b hb => ?_
  have hb := List.mem_range.1 hb
  simp only [Function.comp, BitVec.toNat_add, BitVec.toNat_ofNat]
  congr 1
  omega

/-- A copy at none of whose accesses anything armed is due: all its writes are outstanding when the armed acts begin. -/
theorem streamPass_of_noneDue {s : State} (hc : entryCheck true s = none) (hv : buffersValid true s)
    (hn : noneDueBelow (2 * wordCount s.len) s.rivals) :
    ∃ t, streamPass true s = .next t ∧ t.status.ok = true ∧
      let ws := issuedFrom s.dst.toNat (Memory.wordsAt s.mem s.src.toNat (wordCount s.len))
      t.mem = landedMem s.mem ws s.rivals ∧ t.observed = s.observed ++ seenBy s.mem ws s.rivals := by
  obtain ⟨⟨hr, hw⟩, hb⟩ := hv
  obtain ⟨h4, -⟩ := entryCheck_none hc
  have hsum := sum_chunksOf s.platform.chunkWords (wordCount s.len / 4)
  obtain ⟨e, hrun, hpend⟩ := runChunks_of_noneDue (gs := chunksOf s.platform.chunkWords (wordCount s.len / 4))
    (s := setEngine s freshEngine) rfl hn (by rw [hsum]; simp only [engineOf_setEngine, freshEngine]; omega)
    (by rw [hsum, ← h4]; exact hr) (by rw [hsum, ← h4]; exact hw rfl) (by simp)
  rw [hsum, ← h4] at hpend
  have hpend : e.pending = issuedFrom s.dst.toNat (Memory.wordsAt s.mem s.src.toNat (wordCount s.len)) := hpend
  refine ⟨finishPass (setEngine s e), ?_, rfl, ?_, ?_⟩
  · simp only [streamPass, hc, hb, Bool.false_eq_true, if_false]
    rw [hrun]
    rfl
  · rw [← hpend]
    exact landed_mem (setEngine s e)
  · rw [← hpend]
    rfl

theorem dueBy_cons_of_lt {tick : Nat} {r : Rival} (h : tick < r.after) (rs : List Rival) : dueBy tick (r :: rs) = [] := by
  simp [dueBy, h]

theorem actWrites_readOfWord {moment : Nat} {addr : Word} {r : Rival} (h : r ∈ readOfWord moment addr) :
    actWrites r.act = none := by
  obtain ⟨k, -, rfl⟩ := List.mem_map.1 h
  rfl

theorem Memory.getElem?_wordsAt (m : List Host.Cell) (a : Nat) {n j : Nat} (h : j < n) :
    (Memory.wordsAt m a n)[j]? = some (Memory.wordAt m (a + 8 * j)) := by
  simp [Memory.wordsAt, h]

/-- The address of a word of a buffer that fits the address space does not wrap. -/
theorem toNat_add_wordOffset {base : Word} {n j : Nat} (h : base.toNat + 8 * n ≤ 2 ^ 64) (hj : j < n) :
    (base + BitVec.ofNat 64 (8 * j)).toNat = base.toNat + 8 * j := by
  rw [BitVec.toNat_add, BitVec.toNat_ofNat]
  omega

/-- The act `perform` makes one outstanding word of a run visible, and no other. -/
theorem actMem_perform_issuedFrom {addr : Word} {m : List Host.Cell} {a j : Nat} {v : Word} {vs : List Word}
    (hv : vs[j]? = some v) (ha : addr.toNat = a + 8 * j) :
    actMem m (issuedFrom a vs) (.perform addr) = Memory.writeWord m addr.toNat v := by
  rw [actMem, issuedTo_issuedFrom hv ha]
  rfl

/-- Settles O53: the copy's writes are all outstanding at the first act, which makes word `j` visible; the reads then see the
source's word `j` and the old word `k`, and all the writes land. -/
theorem writesBecomeVisibleInAnyOrder : Obligations.WritesBecomeVisibleInAnyOrder := by
  intro i s j k hi hc hv hj hk hjk hrivals
  obtain ⟨-, h8, -⟩ := entryCheck_none hc
  obtain ⟨-, -, -, -, -, hfit, -⟩ := copyCheck_eq_none.1 hc
  have hfit : s.dst.toNat + 8 * wordCount s.len ≤ 2 ^ 64 := by omega
  have hjaddr := toNat_add_wordOffset hfit hj
  have hkaddr := toNat_add_wordOffset hfit hk
  have hnone : noneDueBelow (2 * wordCount s.len) s.rivals := fun tick ht => by
    rw [hrivals]
    exact dueBy_cons_of_lt ht _
  have hmiss : ∀ b, rivalsMiss s.rivals b := fun b r hr => by
    rw [hrivals, List.mem_cons, List.mem_append] at hr
    rcases hr with rfl | hr | hr
    · exact nofun
    · simp [actWrites_readOfWord hr]
    · simp [actWrites_readOfWord hr]
  obtain ⟨t, ht, hok, hmem, hobs⟩ := streamPass_of_noneDue hc hv hnone
  refine ⟨t, by rw [exec_pass (passOf_copy hi), ht], hok, ?_, ?_⟩
  · rw [hobs, hrivals, seenBy_cons, actMem_perform_issuedFrom (Memory.getElem?_wordsAt _ _ hj) hjaddr,
      seenBy_readOfWord _ _ _ (by omega)]
    rw [← List.append_nil (readOfWord _ (s.dst + BitVec.ofNat 64 (8 * k))), seenBy_readOfWord _ _ _ (by omega), seenBy_nil,
      List.append_nil, hjaddr, hkaddr]
    have hnew : ∀ b ∈ List.range 8, Memory.byteAt (Memory.writeWord s.mem (s.dst.toNat + 8 * j)
        (Memory.wordAt s.mem (s.src.toNat + 8 * j))) (s.dst.toNat + 8 * j + b) =
        Memory.byteAt s.mem (s.src.toNat + 8 * j + b) := fun b hb => by
      rw [Memory.byteAt_writeWord_same _ _ _ (List.mem_range.1 hb), Memory.byteAt_eq_byteOf_wordAt _ _ (List.mem_range.1 hb)]
    have hold : ∀ b ∈ List.range 8, Memory.byteAt (Memory.writeWord s.mem (s.dst.toNat + 8 * j)
        (Memory.wordAt s.mem (s.src.toNat + 8 * j))) (s.dst.toNat + 8 * k + b) =
        Memory.byteAt s.mem (s.dst.toNat + 8 * k + b) := fun b hb =>
      Memory.byteAt_writeWord_other _ _ (by have := List.mem_range.1 hb; omega)
    rw [List.map_congr_left hnew, List.map_congr_left hold]
    rfl
  · rw [hmem, landedMem_issuedFrom hmiss]
    simpa using Memory.wordsAt_writeWords_same _ s.dst.toNat (Memory.wordsAt s.mem s.src.toNat (wordCount s.len))

end Sys2Proof.Machine

namespace Sys2Proof.Machine

/-! ### Words in data memory (R34, R36, R37) -/

theorem sum_map_range_eight (f : Nat → Nat) :
    ((List.range 8).map f).sum = f 0 + f 1 + f 2 + f 3 + f 4 + f 5 + f 6 + f 7 := by
  have hrange : List.range 8 = [0, 1, 2, 3, 4, 5, 6, 7] := rfl
  simp only [hrange, List.map_cons, List.map_nil, List.sum_cons, List.sum_nil]
  omega

/-- Settles O38: the bytes of `wordOfBytes` at their weights. -/
theorem wordIsLittleEndian : Obligations.WordIsLittleEndian := by
  intro m a
  rw [sum_map_range_eight, Memory.wordAt, wordOfBytes_toNat]
  simp only [Nat.mul_zero, Nat.reduceMul, pow_zero, Nat.mul_one]

/-- Settles O39: the laws of `Memory.writeWord`, with `byteOf_toNat` for the value of a byte. -/
theorem writeThenReadWord : Obligations.WriteThenReadWord := fun m a v =>
  ⟨Memory.wordAt_writeWord_same m a v,
    fun k hk => by rw [Memory.byteAt_writeWord_same m a v hk, byteOf_toNat],
    fun _ hb => Memory.byteAt_writeWord_other m v hb,
    Memory.wf_writeWord a v⟩

/-! ### What a command leaves of data memory (R44 (b), R52) -/

/-- Only a pass changes data memory. -/
theorem exec_mem_of_no_pass {i : Instr} {s t : State} (hi : passOf i = none) (h : exec i s = .next t) : t.mem = s.mem := by
  cases exec_effect h with
  | passed sum isPass => exact absurd (hi.symm.trans isPass) nofun
  | failed | accInit | accUpd | accPut | accCmpeq | renderOut | renderRef | renderAcc => rfl

theorem passOf_not_copy {i : Instr} {copy : Bool} (hi : passOf i = some copy) (h : i ∉ [Instr.copyB, .copyW, .copyF]) :
    copy = false := by
  cases i <;> simp_all [passOf]

/-- Settles O23: a pass that fails at entry changes STATUS only, one that completes has the frame of `exec_pass_next`, and no
other command changes memory. -/
theorem memoryOutsideDestinationUnchanged : Obligations.MemoryOutsideDestinationUnchanged := by
  intro i s t a h hmiss hout
  cases hp : passOf i with
  | none => rw [exec_mem_of_no_pass hp h]
  | some copy =>
    cases hc : entryCheck copy s with
    | some code =>
      rw [exec_pass hp, streamPass_fail hc] at h
      cases h
      rfl
    | none =>
      obtain ⟨-, -, hframe, -⟩ := exec_pass_next hp hc h
      refine hframe a hmiss ?_
      rintro ⟨rfl, hlo, hhi⟩
      rcases hout with hn | hb
      · exact absurd (passOf_not_copy hp hn) nofun
      · omega

/-! ### Where a pass stops (R42, R49 (c), R126) -/

theorem passCoversBlock_iff {copy : Bool} {s : State} : passCoversBlock copy s = true ↔
    s.platform.blockInDataSpace = true ∧ 0 < s.len.toNat ∧
    ((s.src.toNat < s.platform.base.toNat + 256 ∧ s.platform.base.toNat < s.src.toNat + s.len.toNat) ∨
     (copy = true ∧ s.dst.toNat < s.platform.base.toNat + 256 ∧ s.platform.base.toNat < s.dst.toNat + s.len.toNat)) := by
  simp only [passCoversBlock, coversBlock, Bool.or_eq_true, Bool.and_eq_true, decide_eq_true_eq]
  tauto

theorem streamPass_refused {copy : Bool} {s : State} (hc : entryCheck copy s = none) (hb : passCoversBlock copy s = true) :
    streamPass copy s = .refused .bufferOverRegisterBlock := by
  rw [streamPass, hc]
  exact if_pos hb

/-- Settles O56: the named overlap is what `passCoversBlock` tests, once the checks pass. -/
theorem bufferOverBlockRefused : Obligations.BufferOverBlockRefused := by
  intro i s copy hp hc hvis hlen hover
  rw [exec_pass hp, streamPass_refused hc (passCoversBlock_iff.2 ⟨hvis, hlen, hover⟩)]

/-- Settles O55: `streamPass_follows`, and a pass that completes sets OK. -/
theorem passStopsAtFirstRefusedAccess : Obligations.PassStopsAtFirstRefusedAccess := by
  intro i s copy hp hc hb
  obtain ⟨hstuck, hends⟩ := streamPass_follows hc hb
  rw [exec_pass hp]
  refine ⟨fun kind a hx => hstuck (kind, a) hx, fun hx => ?_⟩
  obtain ⟨t, ht⟩ := hends hx
  obtain ⟨-, -, -, vs, -, hv⟩ := exec_pass_next hp hc ((exec_pass hp s).trans ht)
  exact ⟨t, ht, by rw [hv]; rfl⟩

theorem wordAccesses_add (kind : AccessKind) (a n k : Nat) :
    wordAccesses kind a (n + k) = wordAccesses kind a n ++ wordAccesses kind (a + 8 * n) k := by
  simp only [wordAccesses, List.range_add, List.map_append, List.map_map]
  congr 1
  refine List.map_congr_left fun i _ => ?_
  simp only [Function.comp, Nat.mul_add, Nat.add_assoc]

/-- The accesses of a CSUM are the reads of its words, in buffer order, however they are cut into chunks (R44). -/
theorem chunksAccesses_csum (src dst p : Nat) (gs : List Nat) :
    chunksAccesses false src dst p gs = wordAccesses .read (src + 32 * p) (4 * gs.sum) := by
  induction gs generalizing p with
  | nil => rfl
  | cons g gs ih =>
    rw [chunksAccesses, ih, chunkAccesses, List.sum_cons, show 4 * (g + gs.sum) = 4 * g + 4 * gs.sum by omega,
      wordAccesses_add, show src + 32 * (p + g) = src + 32 * p + 8 * (4 * g) by omega]
    simp

theorem passAccesses_csum {s : State} (hc : entryCheck false s = none) :
    passAccesses false s = wordAccesses .read s.src.toNat (wordCount s.len) := by
  obtain ⟨h4, -⟩ := entryCheck_none hc
  rw [passAccesses, chunksAccesses_csum, sum_chunksOf, ← h4, Nat.mul_zero, Nat.add_zero]

/-- Of consecutive accesses, the first refused is number `j` if those before it are admitted and it is not. -/
theorem firstRefused_wordAccesses {s : State} {kind : AccessKind} {tick a n j : Nat} (hj : j < n)
    (hbefore : ∀ k < j, admits kind (holesAt s (tick + k)) (a + 8 * k) = true)
    (hat : admits kind (holesAt s (tick + j)) (a + 8 * j) = false) :
    firstRefused s tick (wordAccesses kind a n) = some (kind, a + 8 * j) := by
  induction j generalizing tick a n with
  | zero =>
    obtain ⟨n, rfl⟩ : ∃ k, n = k + 1 := ⟨n - 1, by omega⟩
    rw [wordAccesses_succ]
    exact if_neg (by rw [show admits kind (holesAt s tick) a = false from hat]; decide)
  | succ j ih =>
    obtain ⟨n, rfl⟩ : ∃ k, n = k + 1 := ⟨n - 1, by omega⟩
    rw [wordAccesses_succ]
    refine (if_pos (hbefore 0 (by omega))).trans ?_
    rw [show a + 8 * (j + 1) = a + 8 + 8 * j by omega]
    refine ih (by omega) (fun k hk => ?_) ?_
    · have := hbefore (k + 1) (by omega)
      rwa [show tick + (k + 1) = tick + 1 + k by omega, show a + 8 * (k + 1) = a + 8 + 8 * k by omega] at this
    · rwa [show tick + (j + 1) = tick + 1 + j by omega, show a + 8 * (j + 1) = a + 8 + 8 * j by omega] at hat

/-- Settles O44: the accesses of CSUM are the reads of its words in order, and it is stuck at the first refused. -/
theorem csumStuckAtFirstHole : Obligations.CsumStuckAtFirstHole := by
  intro s j hc hb hj hbefore hat
  have hfirst : firstRefused s 0 (passAccesses false s) = some (.read, s.src.toNat + 8 * j) := by
    rw [passAccesses_csum hc]
    exact firstRefused_wordAccesses hj (by simpa using hbefore) (by simpa using hat)
  rw [exec_pass (i := .csum) rfl]
  exact (streamPass_follows hc hb).1 _ hfirst

theorem mem_wordAccesses {kind : AccessKind} {a n i : Nat} (h : i < n) : (kind, a + 8 * i) ∈ wordAccesses kind a n :=
  List.mem_map_of_mem (List.mem_range.2 h)

/-- Each access to a word of the buffers, here the one at offset `b`, is among those of the chunks. -/
theorem mem_chunksAccesses {copy : Bool} {src dst : Nat} {kind : AccessKind} {b : Nat}
    (hchunk : ∀ p g i, i < 4 * g → (kind, b + 32 * p + 8 * i) ∈ chunkAccesses copy src dst (32 * p) g)
    {p i : Nat} {gs : List Nat} (hi : i < 4 * gs.sum) :
    (kind, b + 32 * p + 8 * i) ∈ chunksAccesses copy src dst p gs := by
  induction gs generalizing p i with
  | nil => simp at hi
  | cons g gs ih =>
    rw [List.sum_cons] at hi
    rw [chunksAccesses, List.mem_append]
    by_cases hg : i < 4 * g
    · exact .inl (hchunk p g i hg)
    · right
      rw [show b + 32 * p + 8 * i = b + 32 * (p + g) + 8 * (i - 4 * g) by omega]
      exact ih (by omega)

/-- A pass reads every word of its source. -/
theorem read_mem_passAccesses {copy : Bool} {s : State} (hc : entryCheck copy s = none) {i : Nat} (hi : i < wordCount s.len) :
    (.read, s.src.toNat + 8 * i) ∈ passAccesses copy s := by
  obtain ⟨h4, -⟩ := entryCheck_none hc
  refine mem_chunksAccesses (p := 0) (fun p g i hi => ?_) (by rw [sum_chunksOf]; omega)
  exact List.mem_append_left _ (mem_wordAccesses hi)

/-- A copy writes every word of its destination. -/
theorem write_mem_passAccesses {s : State} (hc : entryCheck true s = none) {i : Nat} (hi : i < wordCount s.len) :
    (.write, s.dst.toNat + 8 * i) ∈ passAccesses true s := by
  obtain ⟨h4, -⟩ := entryCheck_none hc
  refine mem_chunksAccesses (p := 0) (fun p g i hi => ?_) (by rw [sum_chunksOf]; omega)
  exact List.mem_append_right _ (mem_wordAccesses hi)

/-- While nothing is remapped, the first refused access is the first that the mapping at the start refuses. -/
theorem firstRefused_eq_find? {s : State} (h : noRemap s.rivals) (tick : Nat) (xs : List (AccessKind × Nat)) :
    firstRefused s tick xs = xs.find? fun x => !admits x.1 s.holes x.2 := by
  have hholes : ∀ tick, holesAt s tick = s.holes := fun tick =>
    holesAfter_eq_of_no_remap fun r hr => h r (mem_of_mem_dueBy hr)
  induction xs generalizing tick with
  | nil => rfl
  | cons x xs ih =>
    rw [firstRefused, hholes, ih, List.find?_cons]
    cases admits x.1 s.holes x.2 <;> rfl

/-- A copy whose accesses are all admitted has its buffers admitted. -/
theorem buffersAdmitted_of_passAccesses {s : State} (hc : entryCheck true s = none)
    (h : ∀ x ∈ passAccesses true s, admits x.1 s.holes x.2 = true) : buffersAdmitted true s s.holes :=
  ⟨fun _ hi => h _ (read_mem_passAccesses hc hi), fun _ _ hi => h _ (write_mem_passAccesses hc hi)⟩

/-- Settles O54: were no access refused, the buffers would be admitted; so there is a first refused, and the copy stops there. -/
theorem copyStuckAtHole : Obligations.CopyStuckAtHole := by
  intro i s hi hc hb hremap hbad
  have hfirst := firstRefused_eq_find? hremap 0 (passAccesses true s)
  cases hf : firstRefused s 0 (passAccesses true s) with
  | none =>
    refine absurd (buffersAdmitted_of_passAccesses hc fun x hx => ?_) hbad
    simpa using List.find?_eq_none.1 (hfirst.symm.trans hf) x hx
  | some x =>
    refine ⟨x.1, x.2, ?_, ?_⟩
    · rw [exec_pass (passOf_copy hi)]
      exact (streamPass_follows hc hb).1 x hf
    · simpa using List.find?_some (hfirst.symm.trans hf)

/-! ### What a copy leaves (R99, R107) -/

/-- Settles O45: `streamPass_quiet` for a copy, with N = LEN / 8. -/
theorem copyWritesWordsAndFolds : Obligations.CopyWritesWordsAndFolds := by
  intro i s hi hlen hlen32 hsrc hdst hsrcEnd hdstEnd hapart hkeeps
  have hzero : s.len.toNat = 0 ∨ s.src.toNat + s.len.toNat ≤ s.dst.toNat ∨ s.dst.toNat + s.len.toNat ≤ s.src.toNat :=
    hapart.imp_left fun h => by rw [h]; rfl
  have hc : entryCheck true s = none := copyCheck_eq_none.2 ⟨hlen, hlen32, hsrc, hdst, hsrcEnd, hdstEnd, hzero⟩
  rw [exec_pass (passOf_copy hi), streamPass_quiet hc hkeeps, wordCount_eq]
  rfl

/-- Settles O51: the words `streamPass_next` gives are those folded and those the destination holds. -/
theorem racedCopyMatchesItsChecksum : Obligations.RacedCopyMatchesItsChecksum := by
  intro i s t hi hc hmiss h
  rw [exec_pass (passOf_copy hi)] at h
  rcases streamPass_next h with ⟨code, hfail, -⟩ | ⟨-, -, -, -, -, vs, -, ht, hdst⟩
  · exact absurd (hc.symm.trans hfail) nofun
  · have hwords := hdst rfl fun b hlo hhi r hr hw => by
      have := hmiss r hr b hw
      omega
    rw [hwords, ht]
    exact ⟨rfl, rfl⟩

/-! ### The moves of the engine -/

/-- How the engine gets from `s`, whose next write would be to `d`, to a state whose next write would be to the last `Nat`: armed
acts that are due happen, the hidden state changes but for the writes outstanding, and writes are issued in ascending order. -/
inductive Moves (d : Nat) (s : State) : Nat → State → Prop
  | start : Moves d s d s
  | settle {d' : Nat} {t : State} : Moves d s d' t → Moves d s d' (settle t)
  | hidden {d' : Nat} {t : State} {e : Engine} : Moves d s d' t → e.pending = (engineOf t).pending → Moves d s d' (setEngine t e)
  | issue {d' : Nat} {t : State} (v : Word) : Moves d s d' t → Moves d s (d' + 8) (setEngine t (issued ⟨d', v⟩ (engineOf t)))

theorem Moves.trans {d d' d'' : Nat} {s t u : State} (h1 : Moves d s d' t) (h2 : Moves d' t d'' u) : Moves d s d'' u := by
  induction h2 with
  | start => exact h1
  | settle _ ih => exact ih.settle
  | hidden _ he ih => exact ih.hidden he
  | issue v _ ih => exact ih.issue v

theorem fetchWord_moves {a : Nat} {s t : State} (h : fetchWord a s = .next t) (d : Nat) : Moves d s d t := by
  simp only [fetchWord] at h
  split at h
  · cases h
    exact Moves.start.settle.hidden rfl
  · cases h

theorem fetchWords_moves {n a : Nat} {s t : State} (h : fetchWords n a s = .next t) (d : Nat) : Moves d s d t := by
  induction n generalizing a s with
  | zero =>
    cases h
    exact .start
  | succ n ih =>
    obtain ⟨u, hu, ht⟩ := andThen_eq_next h
    exact (fetchWord_moves hu d).trans (ih ht)

theorem storeWord_moves {d : Nat} {v : Word} {s t : State} (h : storeWord d v s = .next t) : Moves d s (d + 8) t := by
  simp only [storeWord_eq, memWrite] at h
  split at h
  · cases h
    exact Moves.start.settle.issue v
  · cases h

theorem storeWords_moves {vs : List Word} {d : Nat} {s t : State} (h : storeWords vs d s = .next t) :
    Moves d s (d + 8 * vs.length) t := by
  induction vs generalizing d s with
  | nil =>
    cases h
    exact .start
  | cons v vs ih =>
    obtain ⟨u, hu, ht⟩ := andThen_eq_next h
    rw [List.length_cons, show d + 8 * (vs.length + 1) = d + 8 + 8 * vs.length by omega]
    exact (storeWord_moves hu).trans (ih ht)

theorem runChunk_moves {g : Nat} {s t : State} (hc : (engineOf s).chunk = []) (h : runChunk true g s = .next t) :
    Moves (s.dst.toNat + 32 * (engineOf s).pos) s (s.dst.toNat + 32 * ((engineOf s).pos + g)) t := by
  obtain ⟨s1, h1, h⟩ := andThen_eq_next h
  obtain ⟨s2, h2, h⟩ := andThen_eq_next h
  cases h
  obtain ⟨-, vs, _, hl, he⟩ := fetchWords_next h1
  have hlen : (engineOf (foldChunk s1)).chunk.length = 4 * g := by simp [foldChunk, he, hc, hl]
  have hstore := storeWords_moves h2
  rw [hlen, show s.dst.toNat + 32 * (engineOf s).pos + 8 * (4 * g) = s.dst.toNat + 32 * ((engineOf s).pos + g) by omega] at hstore
  have hfold : Moves (s.dst.toNat + 32 * (engineOf s).pos) s (s.dst.toNat + 32 * (engineOf s).pos) (foldChunk s1) :=
    (fetchWords_moves h1 _).hidden rfl
  exact (hfold.trans hstore).hidden rfl

theorem runChunks_moves {gs : List Nat} {s t : State} (hc : (engineOf s).chunk = []) (h : runChunks true gs s = .next t) :
    ∃ d, Moves (s.dst.toNat + 32 * (engineOf s).pos) s d t := by
  induction gs generalizing s with
  | nil =>
    cases h
    exact ⟨_, .start⟩
  | cons g gs ih =>
    obtain ⟨u, hu, ht⟩ := andThen_eq_next h
    obtain ⟨hp, _, _, ⟨_, _, he⟩, _⟩ := runChunk_next hc hu
    obtain ⟨d, hd⟩ := ih (by rw [he]) ht
    rw [he, hp.only.dst] at hd
    exact ⟨d, (runChunk_moves hc hu).trans hd⟩

/-- A copy that completes moves through its destination and finishes. -/
theorem streamPass_moves {s t : State} (hc : entryCheck true s = none) (h : streamPass true s = .next t) :
    ∃ d u, Moves s.dst.toNat (setEngine s freshEngine) d u ∧ t = finishPass u := by
  simp only [streamPass, hc] at h
  split at h
  · cases h
  · obtain ⟨u, hu, ht⟩ := andThen_eq_next h
    cases ht
    obtain ⟨d, hd⟩ := runChunks_moves rfl hu
    exact ⟨d, u, hd, rfl⟩

/-! ### One word of memory while acts happen and writes are issued (R47, R49 (b)) -/

/-- What is known of a value `v` that the word at `a` holds or was seen to hold, where the next write would be to `d`: it is the old
value, or it is the value held now and no write to the word is outstanding or still to be issued. -/
def OldOrSettled (old : Word) (a d : Nat) (m : List Host.Cell) (ws : List IssuedWrite) (v : Word) : Prop :=
  v = old ∨ (v = Memory.wordAt m a ∧ writesApart ws a ∧ a + 8 ≤ d)

/-- Every write outstanding is to an aligned word below `d`. -/
abbrev alignedBelow (d : Nat) (ws : List IssuedWrite) : Prop := ∀ w ∈ ws, w.addr % 8 = 0 ∧ w.addr + 8 ≤ d

section
variable {old v : Word} {a d : Nat} {m : List Host.Cell} {ws : List IssuedWrite}

theorem wordAt_memAfter {rs : List Rival} (h : ∀ k < 8, rivalsMiss rs (a + k)) (hw : writesApart ws a) :
    Memory.wordAt (memAfter m ws rs) a = Memory.wordAt m a :=
  Memory.wordAt_congr fun k hk => byteAt_memAfter (h k hk) fun w hm => by
    have := hw w hm
    omega

theorem wordAt_performWrites (hw : writesApart ws a) : Memory.wordAt (performWrites ws m) a = Memory.wordAt m a :=
  Memory.wordAt_congr fun k hk => byteAt_performWrites_other (fun w hm => by
    have := hw w hm
    omega) m

/-- Acts that do not write the word keep what is known. -/
theorem OldOrSettled.memAfter {rs : List Rival} (h : OldOrSettled old a d m ws v) (hr : ∀ k < 8, rivalsMiss rs (a + k)) :
    OldOrSettled old a d (memAfter m ws rs) (pendingAfter ws rs) v := by
  rcases h with h | ⟨hv, hw, hd⟩
  · exact .inl h
  · exact .inr ⟨by rw [hv, wordAt_memAfter hr hw], fun w hm => hw w (mem_of_mem_pendingAfter hm), hd⟩

/-- So does the next write, which comes after a settled word. -/
theorem OldOrSettled.issue (h : OldOrSettled old a d m ws v) (x : Word) :
    OldOrSettled old a (d + 8) m (ws ++ [⟨d, x⟩]) v := by
  rcases h with h | ⟨hv, hw, hd⟩
  · exact .inl h
  · refine .inr ⟨hv, fun w hm => ?_, by omega⟩
    rcases List.mem_append.1 hm with hm | hm
    · exact hw w hm
    · rw [List.mem_singleton.1 hm]
      exact .inr hd

/-- An act that does not write the word leaves it, or performs the writes outstanding to it and settles it. -/
theorem wordAt_actMem {act : AgentAct} (ha : a % 8 = 0) (hws : alignedBelow d ws) (hr : ∀ k < 8, actWrites act ≠ some (a + k)) :
    Memory.wordAt (actMem m ws act) a = Memory.wordAt m a ∨ (writesApart (actPending ws act) a ∧ a + 8 ≤ d) := by
  cases act with
  | write addr byte =>
    exact .inl (Memory.wordAt_congr fun k hk => Memory.byteAt_write_other _ _ fun e => hr k hk (congrArg some e.symm))
  | read addr => exact .inl rfl
  | remap holes => exact .inl rfl
  | perform addr =>
    by_cases hw : writesApart (issuedTo addr ws) a
    · exact .inl (wordAt_performWrites hw)
    · right
      simp only [writesApart, not_forall] at hw
      obtain ⟨w, hm, hnear⟩ := hw
      obtain ⟨hmem, haddr⟩ := List.mem_filter.1 hm
      obtain ⟨halign, hbelow⟩ := hws w hmem
      have haddr : w.addr = addr.toNat := of_decide_eq_true haddr
      have hwa : w.addr = a := by omega
      refine ⟨fun x hx => ?_, by omega⟩
      obtain ⟨hxmem, hxaddr⟩ := List.mem_filter.1 hx
      have hxaddr : x.addr ≠ addr.toNat := by simpa using hxaddr
      have := (hws x hxmem).1
      omega

/-- Whatever acts happen, the word then holds the old value or is settled. -/
theorem oldOrSettled_memAfter {rs : List Rival} (ha : a % 8 = 0) (hws : alignedBelow d ws)
    (hr : ∀ k < 8, rivalsMiss rs (a + k)) (h : OldOrSettled old a d m ws (Memory.wordAt m a)) :
    OldOrSettled old a d (memAfter m ws rs) (pendingAfter ws rs) (Memory.wordAt (memAfter m ws rs) a) := by
  rcases h with h | ⟨-, hw, hd⟩
  · induction rs generalizing m ws with
    | nil => exact .inl h
    | cons r rs ih =>
      have hr' : ∀ k < 8, rivalsMiss rs (a + k) := fun k hk q hq => hr k hk q (by simp [hq])
      rcases wordAt_actMem (m := m) ha hws (fun k hk => hr k hk r (by simp)) with hkeep | ⟨hw, hd⟩
      · exact ih (fun w hm => hws w (mem_of_mem_actPending hm)) hr' (hkeep.trans h)
      · exact .inr ⟨rfl, fun w hm => hw w (mem_of_mem_pendingAfter hm), hd⟩
  · exact .inr ⟨rfl, fun w hm => hw w (mem_of_mem_pendingAfter hm), hd⟩

end

/-! ### A read of a word among the armed acts -/

/-- How many bytes other agents read. -/
def readCount (rs : List Rival) : Nat := (rs.filterMap fun r => actReads r.act).length

theorem readCount_cons (r : Rival) (rs : List Rival) : readCount (r :: rs) = (actReads r.act).toList.length + readCount rs := by
  cases h : actReads r.act <;> simp [readCount, h, Nat.add_comm]

theorem readCount_append (rs rs' : List Rival) : readCount (rs ++ rs') = readCount rs + readCount rs' := by
  simp [readCount]

theorem length_seenBy (m : List Host.Cell) (ws : List IssuedWrite) (rs : List Rival) : (seenBy m ws rs).length = readCount rs := by
  induction rs generalizing m ws with
  | nil => rfl
  | cons r rs ih =>
    rw [seenBy_cons, readCount_cons, List.length_append, ih]
    cases h : actReads r.act <;> simp [actSees, h]

/-- The bytes of a word, lowest address first. -/
def wordBytes (v : Word) : List Byte := (List.range 8).map (byteOf v)

theorem map_byteAt_eq_wordBytes (m : List Host.Cell) (a : Nat) :
    ((List.range 8).map fun k => Memory.byteAt m (a + k)) = wordBytes (Memory.wordAt m a) :=
  List.map_congr_left fun _ hk => Memory.byteAt_eq_byteOf_wordAt m a (List.mem_range.1 hk)

/-- The eight reads are due at one moment, so the queue is not cut among them. -/
theorem queue_not_cut (tick moment : Nat) (addr : Word) (rest later : List Rival) :
    (∃ rest', notDueBy tick (rest ++ (readOfWord moment addr ++ later)) = rest' ++ (readOfWord moment addr ++ later)) ∨
    ∃ later', dueBy tick (rest ++ (readOfWord moment addr ++ later)) = rest ++ (readOfWord moment addr ++ later') := by
  induction rest with
  | nil =>
    by_cases hm : moment ≤ tick
    · have hreads : ∀ r ∈ readOfWord moment addr, decide (r.after ≤ tick) = true := fun r hr => by
        obtain ⟨k, -, rfl⟩ := List.mem_map.1 hr
        exact decide_eq_true hm
      exact .inr ⟨dueBy tick later, List.takeWhile_append_of_pos hreads⟩
    · exact .inl ⟨[], List.dropWhile_cons_of_neg (by simpa using hm)⟩
  | cons r rest ih =>
    by_cases hr : r.after ≤ tick
    · refine ih.imp (fun ⟨rest', h⟩ => ⟨rest', ?_⟩) fun ⟨later', h⟩ => ⟨later', ?_⟩
      · rw [← h]
        exact List.dropWhile_cons_of_pos (decide_eq_true hr)
      · rw [List.cons_append, List.cons_append, ← h]
        exact List.takeWhile_cons_of_pos (decide_eq_true hr)
    · exact .inl ⟨r :: rest, List.dropWhile_cons_of_neg (by simpa using hr)⟩

/-- Of a copy that began in `s`, with a read of the word at `addr` armed behind `earlier`: the read is still armed in `u`. -/
def ReadArmed (s : State) (moment : Nat) (addr : Word) (earlier later : List Rival) (u : State) : Prop :=
  ∃ rest xs, u.rivals = rest ++ (readOfWord moment addr ++ later) ∧ u.observed = s.observed ++ xs ∧
    xs.length + readCount rest = readCount earlier

/-- The read has happened, and saw a value that was old or is settled in `u`, from which the next write is to `d`. -/
def ReadDone (s : State) (addr : Word) (earlier : List Rival) (d : Nat) (u : State) : Prop :=
  ∃ v xs ys, OldOrSettled (Memory.wordAt s.mem addr.toNat) addr.toNat d u.mem (engineOf u).pending v ∧
    u.observed = s.observed ++ (xs ++ (wordBytes v ++ ys)) ∧ xs.length = readCount earlier

/-- What holds in every state `u` of that copy: the read is armed or done, no agent writes the word, and the word itself is old or
settled. -/
structure Watched (s : State) (moment : Nat) (addr : Word) (earlier later : List Rival) (d : Nat) (u : State) : Prop where
  aligned : d % 8 = 0
  pending : alignedBelow d (engineOf u).pending
  miss : ∀ k < 8, rivalsMiss u.rivals (addr.toNat + k)
  current : OldOrSettled (Memory.wordAt s.mem addr.toNat) addr.toNat d u.mem (engineOf u).pending (Memory.wordAt u.mem addr.toNat)
  read : ReadArmed s moment addr earlier later u ∨ ReadDone s addr earlier d u

section
variable {s u : State} {moment d : Nat} {addr : Word} {earlier later due left : List Rival}

theorem settleWith_mem : (settleWith due left u).mem = memAfter u.mem (engineOf u).pending due := rfl

theorem settleWith_observed :
    (settleWith due left u).observed = u.observed ++ seenBy u.mem (engineOf u).pending due := rfl

/-- Acts ahead of the read happen. -/
theorem ReadArmed.settleWith {rest : List Rival} (h : ReadArmed s moment addr earlier later u)
    (hq : u.rivals = due ++ (rest ++ (readOfWord moment addr ++ later))) :
    ReadArmed s moment addr earlier later (settleWith due (rest ++ (readOfWord moment addr ++ later)) u) := by
  obtain ⟨rest', xs, hriv, hobs, hlen⟩ := h
  have hrest : rest' = due ++ rest := by
    rw [hriv, ← List.append_assoc due] at hq
    exact List.append_cancel_right hq
  refine ⟨rest, xs ++ seenBy u.mem (engineOf u).pending due, rfl, ?_, ?_⟩
  · rw [settleWith_observed, hobs, List.append_assoc]
  · rw [hrest, readCount_append] at hlen
    rw [List.length_append, length_seenBy]
    omega

/-- Acts up to the read and after it happen: the read sees the word as the acts ahead of it leave it. -/
theorem Watched.readDone {rest later' : List Rival} {xs : List Byte} (h : Watched s moment addr earlier later d u)
    (ha : addr.toNat % 8 = 0) (hmiss : ∀ k < 8, rivalsMiss (rest ++ (readOfWord moment addr ++ later')) (addr.toNat + k))
    (hobs : u.observed = s.observed ++ xs) (hlen : xs.length + readCount rest = readCount earlier) :
    ReadDone s addr earlier d (settleWith (rest ++ (readOfWord moment addr ++ later')) left u) := by
  have hrest : ∀ k < 8, rivalsMiss rest (addr.toNat + k) := fun k hk r hr => hmiss k hk r (List.mem_append_left _ hr)
  have hread := oldOrSettled_memAfter ha h.pending hrest h.current
  refine ⟨Memory.wordAt (memAfter u.mem (engineOf u).pending rest) addr.toNat, xs ++ seenBy u.mem (engineOf u).pending rest,
    seenBy (memAfter u.mem (engineOf u).pending rest) (pendingAfter (engineOf u).pending rest) later', ?_, ?_, ?_⟩
  · rw [settleWith_mem, engineOf_settleWith, memAfter_append, pendingAfter_append]
    exact hread.memAfter fun k hk r hr => hmiss k hk r (List.mem_append_right _ hr)
  · rw [settleWith_observed, seenBy_append, seenBy_readOfWord _ _ _ (by omega), map_byteAt_eq_wordBytes, hobs]
    simp only [List.append_assoc]
  · rw [List.length_append, length_seenBy, hlen]

/-- More acts happen after the read. -/
theorem ReadDone.settleWith (h : ReadDone s addr earlier d u) (hmiss : ∀ k < 8, rivalsMiss due (addr.toNat + k)) :
    ReadDone s addr earlier d (settleWith due left u) := by
  obtain ⟨v, xs, ys, hv, hobs, hlen⟩ := h
  refine ⟨v, xs, ys ++ seenBy u.mem (engineOf u).pending due, ?_, ?_, hlen⟩
  · rw [settleWith_mem, engineOf_settleWith]
    exact hv.memAfter hmiss
  · rw [settleWith_observed, hobs]
    simp only [List.append_assoc]

/-- Acts at the front of the queue happen, the eight reads not cut. -/
theorem Watched.settleWith (h : Watched s moment addr earlier later d u) (ha : addr.toNat % 8 = 0) (hq : u.rivals = due ++ left)
    (hcut : ∀ rest, u.rivals = rest ++ (readOfWord moment addr ++ later) →
      (∃ rest', left = rest' ++ (readOfWord moment addr ++ later)) ∨ ∃ later', due = rest ++ (readOfWord moment addr ++ later')) :
    Watched s moment addr earlier later d (settleWith due left u) := by
  have hdue : ∀ k < 8, rivalsMiss due (addr.toNat + k) := fun k hk r hr =>
    h.miss k hk r (hq ▸ List.mem_append_left _ hr)
  refine ⟨h.aligned, ?_, fun k hk r hr => h.miss k hk r (hq ▸ List.mem_append_right _ hr), ?_, ?_⟩
  · rw [engineOf_settleWith]
    exact fun w hw => h.pending w (mem_of_mem_pendingAfter hw)
  · rw [settleWith_mem, engineOf_settleWith]
    exact oldOrSettled_memAfter ha h.pending hdue h.current
  · rcases h.read with harmed | hdone
    · obtain ⟨rest, xs, hriv, hobs, hlen⟩ := id harmed
      rcases hcut rest hriv with ⟨rest', rfl⟩ | ⟨later', rfl⟩
      · exact .inl (harmed.settleWith hq)
      · exact .inr (h.readDone ha hdue hobs hlen)
    · exact .inr (hdone.settleWith hdue)

/-- The acts that are due happen. -/
theorem Watched.settle (h : Watched s moment addr earlier later d u) (ha : addr.toNat % 8 = 0) :
    Watched s moment addr earlier later d (settle u) :=
  h.settleWith ha (dueBy_append_notDueBy _ _).symm fun rest hr => by
    rw [hr]
    exact queue_not_cut _ moment addr rest later

/-- All acts happen. -/
theorem Watched.settleAll (h : Watched s moment addr earlier later d u) (ha : addr.toNat % 8 = 0) :
    Watched s moment addr earlier later d (settleAll u) :=
  h.settleWith ha (List.append_nil _).symm fun _ hr => .inr ⟨later, hr⟩

/-- A change of the hidden state that issues nothing. -/
theorem Watched.hidden (h : Watched s moment addr earlier later d u) {e : Engine} (he : e.pending = (engineOf u).pending) :
    Watched s moment addr earlier later d (setEngine u e) := by
  obtain ⟨hal, hp, hmiss, hcur, hread⟩ := h
  simp only [ReadDone] at hread
  rw [← he] at hp hcur hread
  exact ⟨hal, hp, hmiss, hcur, hread⟩

/-- The next write is issued: it is to no settled word. -/
theorem Watched.issue (h : Watched s moment addr earlier later d u) (x : Word) :
    Watched s moment addr earlier later (d + 8) (setEngine u (issued ⟨d, x⟩ (engineOf u))) := by
  obtain ⟨hal, hp, hmiss, hcur, hread⟩ := h
  refine ⟨by omega, fun w hw => ?_, hmiss, hcur.issue x, hread.imp_right ?_⟩
  · rcases List.mem_append.1 hw with hw | hw
    · have := hp w hw
      omega
    · rw [List.mem_singleton.1 hw]
      exact ⟨hal, le_refl _⟩
  · rintro ⟨v, xs, ys, hv, hseen⟩
    exact ⟨v, xs, ys, hv.issue x, hseen⟩

/-- Every move of the engine keeps it. -/
theorem Watched.moves {d' : Nat} {t : State} (h : Watched s moment addr earlier later d u) (ha : addr.toNat % 8 = 0)
    (hm : Moves d u d' t) : Watched s moment addr earlier later d' t := by
  induction hm with
  | start => exact h
  | settle _ ih => exact ih.settle ha
  | hidden _ he ih => exact ih.hidden he
  | issue v _ ih => exact ih.issue v

theorem watched_start (hc : entryCheck true s = none) (hr : s.rivals = earlier ++ (readOfWord moment addr ++ later))
    (hmiss : ∀ k < 8, rivalsMiss s.rivals (addr.toNat + k)) :
    Watched s moment addr earlier later s.dst.toNat (setEngine s freshEngine) := by
  obtain ⟨-, -, -, hdst, -⟩ := copyCheck_eq_none.1 hc
  exact ⟨by omega, fun w hw => absurd hw List.not_mem_nil, hmiss, .inl rfl,
    .inl ⟨earlier, [], hr, (List.append_nil _).symm, Nat.zero_add _⟩⟩

/-- When a copy completes the read has happened, and what it saw is the old word or the one memory then holds. -/
theorem Watched.finishPass (h : Watched s moment addr earlier later d u) (ha : addr.toNat % 8 = 0) :
    ∃ v xs ys, (v = Memory.wordAt s.mem addr.toNat ∨ v = Memory.wordAt (finishPass u).mem addr.toNat) ∧
      (finishPass u).observed = s.observed ++ (xs ++ (wordBytes v ++ ys)) ∧ xs.length = readCount earlier := by
  obtain ⟨-, -, -, -, hread⟩ := h.settleAll ha
  rcases hread with ⟨rest, xs, hriv, -⟩ | ⟨v, xs, ys, hv, hseen⟩
  · simp [readOfWord, List.range_succ] at hriv
  · refine ⟨v, xs, ys, hv.imp_right fun ⟨hnow, hw, _⟩ => ?_, hseen⟩
    rw [hnow]
    exact (wordAt_performWrites hw).symm

end

/-- Settles O52: `Watched` holds when the copy starts and every move of the engine keeps it. -/
theorem racingReadSeesOldOrNewWord : Obligations.RacingReadSeesOldOrNewWord := by
  intro i s t moment addr earlier later hi hc ha hr hmiss h
  rw [exec_pass (passOf_copy hi)] at h
  obtain ⟨d, u, hmoves, rfl⟩ := streamPass_moves hc h
  have hstart := watched_start hc hr fun k hk r hm => hmiss r hm k hk
  obtain ⟨v, xs, ys, hv, hobs, hlen⟩ := (hstart.moves ha hmoves).finishPass ha
  obtain ⟨m, hm, rfl⟩ : ∃ m ∈ [s.mem, (finishPass u).mem], v = Memory.wordAt m addr.toNat := by simpa using hv
  refine ⟨m, hm, xs, ys, ?_, hlen⟩
  rw [map_byteAt_eq_wordBytes]
  exact hobs

end Sys2Proof.Machine

namespace Sys2Proof.Machine

/-! ### The fields of a command word (R54, R58, R62) -/

theorem zero_fieldsOf_toNat (cw : CommandWord) : (fieldsOf cw).zero.toNat = cw.toNat / 64 := by
  have := cw.isLt
  simp only [fieldsOf, BitVec.extractLsb'_toNat, Nat.shiftRight_eq_div_pow]
  omega

theorem mod_fieldsOf_toNat (cw : CommandWord) : (fieldsOf cw).mod.toNat = cw.toNat / 16 % 4 := by
  simp [fieldsOf, BitVec.extractLsb'_toNat, Nat.shiftRight_eq_div_pow]

theorem op_fieldsOf_toNat (cw : CommandWord) : (fieldsOf cw).op.toNat = cw.toNat % 16 := by
  simp [fieldsOf, BitVec.extractLsb'_toNat]

/-- The three fields are all of the word (R54). -/
theorem word_fieldsOf (cw : CommandWord) : (fieldsOf cw).word = cw := by
  apply BitVec.eq_of_toNat_eq
  simp only [FormatC.word, toNat_append_eq, zero_fieldsOf_toNat, mod_fieldsOf_toNat, op_fieldsOf_toNat]
  omega

theorem plainCommand_ok {mod : BitVec 2} {i j : Instr} (h : plainCommand mod i = .ok j) : i = j ∧ mod = 0 := by
  rw [plainCommand] at h
  split_ifs at h with h0
  exact ⟨Except.ok.inj h, h0⟩

theorem selectedCommand_ok {mod : BitVec 2} {i0 i1 i2 j : Instr} (h : selectedCommand mod i0 i1 i2 = .ok j) :
    (i0 = j ∧ mod = 0) ∨ (i1 = j ∧ mod = 1) ∨ (i2 = j ∧ mod = 2) := by
  rw [selectedCommand] at h
  split_ifs at h with h0 h1 h2
  · exact .inl ⟨Except.ok.inj h, h0⟩
  · exact .inr (.inl ⟨Except.ok.inj h, h1⟩)
  · exact .inr (.inr ⟨Except.ok.inj h, h2⟩)

/-- A command is chosen only by its own OP and MOD (R55, R58). -/
theorem commandOf_ok {op : BitVec 4} {mod : BitVec 2} {i : Instr} (h : commandOf op mod = .ok i) :
    op = i.fields.op ∧ mod = i.fields.mod := by
  rw [commandOf] at h
  split_ifs at h with h1 h2 h3 h4 h5 h8 h9
  · obtain ⟨rfl, hmod⟩ := plainCommand_ok h; exact ⟨h1, hmod⟩
  · obtain ⟨rfl, hmod⟩ := plainCommand_ok h; exact ⟨h2, hmod⟩
  · obtain ⟨rfl, hmod⟩ := plainCommand_ok h; exact ⟨h3, hmod⟩
  · obtain ⟨rfl, hmod⟩ := plainCommand_ok h; exact ⟨h4, hmod⟩
  · obtain ⟨rfl, hmod⟩ | ⟨rfl, hmod⟩ | ⟨rfl, hmod⟩ := selectedCommand_ok h <;> exact ⟨h5, hmod⟩
  · obtain ⟨rfl, hmod⟩ := plainCommand_ok h; exact ⟨h8, hmod⟩
  · obtain ⟨rfl, hmod⟩ | ⟨rfl, hmod⟩ | ⟨rfl, hmod⟩ := selectedCommand_ok h <;> exact ⟨h9, hmod⟩

theorem decode_of_zero {cw : CommandWord} (h : (fieldsOf cw).zero = 0) :
    decode cw = commandOf (fieldsOf cw).op (fieldsOf cw).mod :=
  if_neg (not_not.2 h)

theorem decode_of_zero_ne {cw : CommandWord} (h : (fieldsOf cw).zero ≠ 0) : decode cw = .error .zeroFieldNotZero :=
  if_pos h

theorem zero_fields (i : Instr) : i.fields.zero = 0 := by
  cases i <;> rfl

theorem eq_encode_of_decode {cw : CommandWord} {i : Instr} (h : decode cw = .ok i) : cw = encode i := by
  by_cases hz : (fieldsOf cw).zero = 0
  · rw [decode_of_zero hz] at h
    obtain ⟨hop, hmod⟩ := commandOf_ok h
    rw [encode, FormatC.word, zero_fields, ← hop, ← hmod, ← hz]
    exact (word_fieldsOf cw).symm
  · rw [decode_of_zero_ne hz] at h
    cases h

theorem decode_encode (i : Instr) : decode (encode i) = .ok i := by
  cases i <;> decide

/-- Settles O2: `eq_encode_of_decode` for every word, `decode_encode` for every command. -/
theorem decodeIsInverseOfEncode : Obligations.DecodeIsInverseOfEncode :=
  fun _ i => ⟨eq_encode_of_decode, fun h => h ▸ decode_encode i⟩

/-- Settles O1: the encodings are R58's command words. -/
theorem decoderSelectsTableRow : Obligations.DecoderSelectsTableRow := fun cw =>
  ⟨decodeIsInverseOfEncode cw .accInit, decodeIsInverseOfEncode cw .accUpd, decodeIsInverseOfEncode cw .accPut,
    decodeIsInverseOfEncode cw .accCmpeq, decodeIsInverseOfEncode cw .renderOut, decodeIsInverseOfEncode cw .renderRef,
    decodeIsInverseOfEncode cw .renderAcc, decodeIsInverseOfEncode cw .csum, decodeIsInverseOfEncode cw .copyB,
    decodeIsInverseOfEncode cw .copyW, decodeIsInverseOfEncode cw .copyF⟩

/-- R59 (b), (c), (d), over the 64 values of OP and MOD: which are rejected, and as what. -/
theorem commandOf_error (op : BitVec 4) (mod : BitVec 2) :
    commandOf op mod ≠ .error .zeroFieldNotZero ∧
    (commandOf op mod = .error .opUnassigned ↔ op.toNat ∈ [0x0, 0x6, 0x7, 0xA, 0xB, 0xC, 0xD, 0xE, 0xF]) ∧
    (commandOf op mod = .error .modNotZero ↔ op.toNat ∈ [0x1, 0x2, 0x3, 0x4, 0x8] ∧ mod.toNat ≠ 0) ∧
    (commandOf op mod = .error .modReserved ↔ op.toNat ∈ [0x5, 0x9] ∧ mod.toNat = 3) := by
  revert op mod
  decide

/-- Settles O3: a ZERO field that is not 0 is rejected first (R62), and where it is 0, `commandOf_error`. -/
theorem illegalWordsRejectedByCase : Obligations.IllegalWordsRejectedByCase := by
  intro cw
  have hzero : (fieldsOf cw).zero = 0 ↔ cw.toNat / 64 = 0 := by
    rw [← BitVec.toNat_inj, zero_fieldsOf_toNat]
    rfl
  by_cases hz : cw.toNat / 64 = 0
  · have hmod : cw.toNat / 16 % 4 = cw.toNat / 16 := by omega
    obtain ⟨h0, hop, hplain, hselected⟩ := commandOf_error (fieldsOf cw).op (fieldsOf cw).mod
    rw [op_fieldsOf_toNat] at hop hplain hselected
    rw [mod_fieldsOf_toNat, hmod] at hplain hselected
    rw [decode_of_zero (hzero.2 hz)]
    simp only [h0, hop, hplain, hselected, hz, ne_eq, not_true_eq_false, true_and, and_self]
  · rw [decode_of_zero_ne (mt hzero.1 hz)]
    simp [hz]

/-- Settles O5: four rows of the table, and one word that is none. -/
theorem sampleWordsDecode : Obligations.SampleWordsDecode := by
  obtain ⟨-, -, hupd⟩ := Laws.EncodeDecode.accUpd
  obtain ⟨-, -, hrender⟩ := Laws.EncodeDecode.renderAcc
  obtain ⟨-, -, hcsum⟩ := Laws.EncodeDecode.csum
  obtain ⟨-, -, hcopy⟩ := Laws.EncodeDecode.copyF
  exact ⟨hupd, hrender, hcsum, hcopy, by decide⟩

/-! ### A manual stream (R65, R80, R82) -/

theorem exec_accUpd_of_lt {s : State} (h : s.cnt.toNat + 4 < 2 ^ 19) :
    exec .accUpd s = .next (succeed { s with acc := upd4 s.acc s.w, cnt := s.cnt + 4 }) := by
  have hfull : streamFull s.cnt = false := decide_eq_false (Nat.not_le.2 h)
  rw [exec, execAccUpd, hfull]
  rfl

/-- The state in which the transactions of one group have been handled (R65). -/
def groupFolded (g : WordGroup) (s : State) : State :=
  succeed { s with
    w := g
    written := { s.written with w0 := true, w1 := true, w2 := true, w3 := true }
    acc := upd4 s.acc g
    cnt := s.cnt + 4 }

/-- The group's words reach W0 to W3, and ACC.UPD folds them (R80). -/
theorem runEvents_groupEvents {g : WordGroup} {s : State} (h : s.cnt.toNat + 4 < 2 ^ 19) :
    runEvents (groupEvents g) s = .next (groupFolded g s) := by
  change andThen (issue (command .accUpd) { s with
    w := g, written := { s.written with w0 := true, w1 := true, w2 := true, w3 := true } }) _ = _
  rw [issue_command, exec_accUpd_of_lt (by exact h)]
  rfl

/-- R82 for the groups of a stream that keeps below the bound, from any ACC and CNT. -/
theorem runEvents_groups (gs : List WordGroup) {s : State} (h : s.cnt.toNat + 4 * gs.length < 2 ^ 19) :
    ∃ t, runEvents (gs.flatMap groupEvents) s = .next t ∧ t.acc = foldFrom s.acc (gs.flatMap groupWords) ∧
      t.cnt.toNat = s.cnt.toNat + 4 * gs.length ∧ t.mem = s.mem := by
  induction gs generalizing s with
  | nil => exact ⟨s, rfl, rfl, rfl, rfl⟩
  | cons g gs ih =>
    rw [List.length_cons] at h
    have hcnt : (groupFolded g s).cnt.toNat = s.cnt.toNat + 4 := by
      change (s.cnt + 4).toNat = _
      rw [BitVec.toNat_add]
      exact Nat.mod_eq_of_lt (by change s.cnt.toNat + 4 < 2 ^ 19; omega)
    obtain ⟨t, hrun, hacc, hcnt', hmem⟩ := ih (s := groupFolded g s) (by omega)
    refine ⟨t, ?_, ?_, ?_, hmem⟩
    · rw [List.flatMap_cons, runEvents_append, runEvents_groupEvents (by omega)]
      exact hrun
    · rw [hacc, List.flatMap_cons, foldFrom_append _ _ _ (by simp)]
      rfl
    · rw [hcnt', hcnt, List.length_cons]
      omega

/-- Settles O57: ACC.INIT starts at IDENT and 0, `runEvents_groups` folds the groups, ACC.PUT hands the sum back. -/
theorem manualStreamEqualsFold : Obligations.ManualStreamEqualsFold := by
  intro s gs hlen
  obtain ⟨t, hrun, hacc, hcnt, hmem⟩ :=
    runEvents_groups gs (s := succeed { s with acc := Accum.ident, cnt := 0 }) (by simpa using hlen)
  refine ⟨succeed { t with out := t.acc }, ?_, rfl, hacc, by simpa using hcnt, hmem⟩
  rw [pseudoStream, runEvents, issue_command]
  change runEvents (_ ++ _) (succeed { s with acc := Accum.ident, cnt := 0 }) = _
  rw [runEvents_append, hrun, andThen_next, runEvents, issue_command]
  rfl

/-! ### CHECKSUM (R65, R91) -/

theorem lastReply_append (s : State) (v : Word) : lastReply { s with replies := s.replies ++ [v] } = v :=
  List.getLastD_concat

/-- STATUS.OK is bit 0 (R26). -/
theorem getLsbD_statusWord_zero (st : Status) : (statusWord st).getLsbD 0 = st.ok := by
  exact (BitVec.getLsbD_append ..).trans (by simp)

/-- Reading the four scalars of OUT records them in the order of R65. -/
theorem runEvents_outReads (s : State) :
    runEvents outReads s = .next { s with replies := s.replies ++ [s.out.a1, s.out.a2, s.out.b1, s.out.b2] } := by
  change Host.Outcome.next { s with replies := s.replies ++ [s.out.a1] ++ [s.out.a2] ++ [s.out.b1] ++ [s.out.b2] } = _
  simp only [List.append_assoc, List.cons_append, List.nil_append]

/-- A call that ends in RD STATUS and finds OK = 1 reads OUT after it (R65). -/
theorem callThenRead_of_ok {call : List Event} {s t : State} (h : runEvents call s = .next t) (hok : t.status.ok = true) :
    callThenRead (call ++ [rd 0x08]) s = .next { t with
      replies := t.replies ++ [statusWord t.status, t.out.a1, t.out.a2, t.out.b1, t.out.b2] } := by
  have hrd : runEvents (call ++ [rd 0x08]) s = .next { t with replies := t.replies ++ [statusWord t.status] } := by
    rw [runEvents_append, h]
    rfl
  rw [callThenRead, hrd, andThen_next, lastReply_append, getLsbD_statusWord_zero, if_pos hok, runEvents_outReads]
  simp only [List.append_assoc, List.cons_append, List.nil_append]

/-- The state in which the host has written CSUM's operands. -/
def csumOperands (src len : Word) (s : State) : State :=
  { s with src := src, len := len, written := { s.written with src := true, len := true } }

/-- Where the host keeps R48, the transactions of CHECKSUM before RD STATUS end with OK = 1 and the fold in OUT (R89, R91). -/
theorem runEvents_csum {src len : Word} {s : State} (hc : entryCheck false (csumOperands src len s) = none)
    (hk : hostKeeps false (csumOperands src len s)) :
    ∃ t, runEvents [wr 0x10 src, wr 0x20 len, command .csum] s = .next t ∧ t.status = okStatus s.status ∧
      t.out = fold (Memory.wordsAt s.mem src.toNat (wordCount len)) ∧ t.replies = s.replies := by
  change ∃ t, andThen (issue (command .csum) (csumOperands src len s)) _ = _ ∧ _
  rw [issue_command, exec_pass rfl, streamPass_quiet hc hk]
  exact ⟨_, rfl, rfl, rfl, rfl⟩

/-- Settles O58: `runEvents_csum`, then `callThenRead_of_ok`. -/
theorem checksumProgramReturnsFold : Obligations.ChecksumProgramReturnsFold := by
  intro s src len hc hk f
  obtain ⟨t, hrun, hstatus, hout, hreplies⟩ := runEvents_csum (s := s) hc hk
  refine ⟨_, callThenRead_of_ok hrun (by rw [hstatus]; rfl), ?_⟩
  simp only [hstatus, hout, hreplies]
  rfl

/-! ### SAVEREF (R65, R83) -/

/-- Moving a scalar of OUT to REF: the reply is recorded and the scalar written. -/
theorem moveReg_out_ref {source target : Nat} {x : Scalar} (hs : slotAt 8 source = some (.out x))
    (ht : slotAt 8 target = some (.ref x)) (s : State) :
    moveReg source target s =
      .next (writeSlot { s with replies := s.replies ++ [scalarOf s.out x] } (.ref x) (scalarOf s.out x)) := by
  rw [moveReg, rd, issue_rd_of_slotAt hs, andThen_next, lastReply_append, wr, issue_wr_of_slotAt ht nofun]
  rfl

/-- SAVEREF makes REF what OUT is, and changes only the host's record besides (R65). -/
theorem pseudoSaveRef_eq (s : State) :
    ∃ written replies, pseudoSaveRef s = .next { s with ref := s.out, written := written, replies := replies } := by
  rw [pseudoSaveRef, moveReg_out_ref (x := .a1) rfl rfl, andThen_next, moveReg_out_ref (x := .a2) rfl rfl, andThen_next,
    moveReg_out_ref (x := .b1) rfl rfl, andThen_next, moveReg_out_ref (x := .b2) rfl rfl]
  exact ⟨_, _, rfl⟩

theorem accEq_self (a : Accum) : accEq a a = true := by
  simp only [accEq, beq_self_eq_true, Bool.and_self]

/-- Settles O59: `pseudoSaveRef_eq`, and ACC.CMPEQ compares OUT with itself. -/
theorem savedReferenceComparesEqual : Obligations.SavedReferenceComparesEqual := by
  intro s
  obtain ⟨written, replies, h⟩ := pseudoSaveRef_eq s
  refine ⟨_, _, h, rfl, rfl, rfl, ?_⟩
  change okStatus (eqFlag s.out s.out s.status) = _
  rw [eqFlag, accEq_self]
  rfl

end Sys2Proof.Machine

namespace Sys2Proof.Machine

/-! ### The update rule and the fold (R68, R70, R71, R72) -/

/-- R68 written out: each lane takes its two words one after the other. -/
theorem upd4_expanded (s : Accum) (g : WordGroup) : upd4 s g =
    { a1 := s.a1 + g.w0 + g.w1, b1 := s.b1 + 2 * s.a1 + 2 * g.w0 + g.w1,
      a2 := s.a2 + g.w2 + g.w3, b2 := s.b2 + 2 * s.a2 + 2 * g.w2 + g.w3 } := by
  have htwice (a b x y : Word) : b + (a + x) + (a + x + y) = b + 2 * a + 2 * x + y := by ring
  simp only [upd4, laneStep, htwice]

/-- Settles O25: `upd4_expanded`. -/
theorem updateRuleExpanded : Obligations.UpdateRuleExpanded := upd4_expanded

/-- Settles O26: `foldFrom_append` for sequences in pieces; the other clauses are the recursion of R71. -/
theorem foldInBufferOrder : Obligations.FoldInBufferOrder :=
  ⟨rfl, fun _ => rfl, foldFrom_groupWords, fun s u v hu _ => foldFrom_append s u v hu⟩

/-- Each lane is folded by itself, over the words it consumes (R70). -/
theorem foldFrom_eq_lanes (s : Accum) (ws : List Word) :
    foldFrom s ws =
      { a1 := ((lane1 ws).foldl laneStep (s.a1, s.b1)).1
        b1 := ((lane1 ws).foldl laneStep (s.a1, s.b1)).2
        a2 := ((lane2 ws).foldl laneStep (s.a2, s.b2)).1
        b2 := ((lane2 ws).foldl laneStep (s.a2, s.b2)).2 } := by
  induction s, ws using foldFrom.induct with
  | case1 s w0 w1 w2 w3 ws ih => exact ih
  | case2 s ws h => simp only [foldFrom, lane1, lane2, List.foldl_nil]

/-- R72 for one lane: a word's share of `b` grows by itself with each word after it. -/
theorem foldl_laneStep (lane : Word × Word) (ys : List Word) :
    ys.foldl laneStep lane =
      (lane.1 + plainSum ys, lane.2 + BitVec.ofNat 64 ys.length * lane.1 + weightedSum ys) := by
  induction ys generalizing lane with
  | nil => simp [plainSum, weightedSum]
  | cons y ys ih =>
    have hsucc : BitVec.ofNat 64 (ys.length + 1) = BitVec.ofNat 64 ys.length + 1 := BitVec.ofNat_add ..
    rw [List.foldl_cons, ih, laneStep, plainSum, weightedSum, List.length_cons, hsucc]
    ext1 <;> ring

/-! ### The words of a lane (R70) -/

/-- Induction over the groups of a sequence of whole groups. -/
theorem wholeGroups_induction {motive : (ws : List Word) → ws.length % 4 = 0 → Prop} (nil : motive [] rfl)
    (group : ∀ w0 w1 w2 w3 ws (h : ws.length % 4 = 0), motive ws h →
      motive (w0 :: w1 :: w2 :: w3 :: ws) ((Nat.add_mod_right ws.length 4).trans h)) :
    ∀ ws h, motive ws h
  | [], _ => nil
  | [_], h => by simp at h
  | [_, _], h => by simp at h
  | [_, _, _], h => by simp at h
  | _ :: _ :: _ :: _ :: ws, h =>
    group _ _ _ _ ws ((Nat.add_mod_right ws.length 4).symm.trans h) (wholeGroups_induction nil group ws _)

theorem length_lane1 {ws : List Word} (h : ws.length % 4 = 0) : (lane1 ws).length = ws.length / 2 := by
  induction ws, h using wholeGroups_induction with
  | nil => rfl
  | group w0 w1 w2 w3 ws h ih =>
    simp only [lane1, List.length_cons, ih]
    omega

theorem length_lane2 {ws : List Word} (h : ws.length % 4 = 0) : (lane2 ws).length = ws.length / 2 := by
  induction ws, h using wholeGroups_induction with
  | nil => rfl
  | group w0 w1 w2 w3 ws h ih =>
    simp only [lane2, List.length_cons, ih]
    omega

/-- R72: both lanes of `foldFrom_eq_lanes` by `foldl_laneStep`. -/
theorem foldFrom_eq_sums {ws : List Word} (h : ws.length % 4 = 0) (s : Accum) : foldFrom s ws =
    { a1 := s.a1 + plainSum (lane1 ws)
      b1 := s.b1 + BitVec.ofNat 64 (ws.length / 2) * s.a1 + weightedSum (lane1 ws)
      a2 := s.a2 + plainSum (lane2 ws)
      b2 := s.b2 + BitVec.ofNat 64 (ws.length / 2) * s.a2 + weightedSum (lane2 ws) } := by
  simp only [foldFrom_eq_lanes, foldl_laneStep, length_lane1 h, length_lane2 h]

theorem fold_eq_sums {ws : List Word} (h : ws.length % 4 = 0) : fold ws =
    { a1 := 1 + plainSum (lane1 ws), b1 := BitVec.ofNat 64 (ws.length / 2) + weightedSum (lane1 ws)
      a2 := 1 + plainSum (lane2 ws), b2 := BitVec.ofNat 64 (ws.length / 2) + weightedSum (lane2 ws) } :=
  (foldFrom_eq_sums h Accum.ident).trans (by simp only [Accum.ident, mul_one, zero_add])

/-- Settles O27: `foldFrom_eq_sums`, and `fold_eq_sums` from IDENT. -/
theorem foldClosedForm : Obligations.FoldClosedForm := fun s _ h => ⟨foldFrom_eq_sums h s, fold_eq_sums h⟩

theorem lane1_set {ws : List Word} (h : ws.length % 4 = 0) (j : Nat) (y : Word) :
    lane1 (ws.set j y) = if j % 4 < 2 then (lane1 ws).set (2 * (j / 4) + j % 2) y else lane1 ws := by
  induction ws, h using wholeGroups_induction generalizing j with
  | nil => simp [lane1]
  | group w0 w1 w2 w3 ws h ih =>
    match j with
    | 0 | 1 | 2 | 3 => rfl
    | j + 4 =>
      have hi : 2 * ((j + 4) / 4) + (j + 4) % 2 = 2 * (j / 4) + j % 2 + 2 := by omega
      simp only [List.set_cons_succ, lane1, ih, hi, Nat.add_mod_right]
      split <;> rfl

theorem lane2_set {ws : List Word} (h : ws.length % 4 = 0) (j : Nat) (y : Word) :
    lane2 (ws.set j y) = if j % 4 < 2 then lane2 ws else (lane2 ws).set (2 * (j / 4) + j % 2) y := by
  induction ws, h using wholeGroups_induction generalizing j with
  | nil => simp [lane2]
  | group w0 w1 w2 w3 ws h ih =>
    match j with
    | 0 | 1 | 2 | 3 => rfl
    | j + 4 =>
      have hi : 2 * ((j + 4) / 4) + (j + 4) % 2 = 2 * (j / 4) + j % 2 + 2 := by omega
      simp only [List.set_cons_succ, lane2, ih, hi, Nat.add_mod_right]
      split <;> rfl

/-! ### Exchanging two words (R73) -/

theorem plainSum_append (u v : List Word) : plainSum (u ++ v) = plainSum u + plainSum v := by
  induction u with
  | nil => simp [plainSum]
  | cons y u ih =>
    rw [List.cons_append, plainSum, plainSum, ih]
    ring

/-- The words of `u` weigh as many times more as there are words after them. -/
theorem weightedSum_append (u v : List Word) :
    weightedSum (u ++ v) = weightedSum u + BitVec.ofNat 64 v.length * plainSum u + weightedSum v := by
  induction u with
  | nil => simp [weightedSum, plainSum]
  | cons y u ih =>
    rw [List.cons_append, weightedSum, weightedSum, plainSum, ih, List.length_append, Nat.add_right_comm, BitVec.ofNat_add]
    ring

theorem plainSum_exchange (pre mid post : List Word) (x y : Word) :
    plainSum (pre ++ y :: (mid ++ x :: post)) = plainSum (pre ++ x :: (mid ++ y :: post)) := by
  simp only [plainSum_append, plainSum]
  ring

theorem weightedSum_exchange (pre mid post : List Word) (x y : Word) :
    weightedSum (pre ++ y :: (mid ++ x :: post)) =
      weightedSum (pre ++ x :: (mid ++ y :: post)) + BitVec.ofNat 64 (mid.length + 1) * (y - x) := by
  simp only [weightedSum_append, weightedSum, List.length_append, List.length_cons, BitVec.ofNat_add]
  ring

/-- Settles O28: `plainSum_exchange` and `weightedSum_exchange` in the closed form of R72. -/
theorem exchangeInLaneChangesOnlyB : Obligations.ExchangeInLaneChangesOnlyB := by
  intro ws ws' pre mid post x y h hlen
  have h' : ws'.length % 4 = 0 := by rw [hlen, h]
  rw [fold_eq_sums h, fold_eq_sums h', hlen]
  constructor
  all_goals
    intro hws hws' hother
    simp only [hws, hws', hother, plainSum_exchange pre mid post x y, weightedSum_exchange pre mid post x y,
      BitVec.add_assoc, and_self]

/-! ### Changing one word (R76) -/

theorem plainSum_set_add {ys : List Word} {i : Nat} (h : i < ys.length) (y d : Word) :
    plainSum (ys.set i (y + d)) = plainSum (ys.set i y) + d := by
  induction ys generalizing i with
  | nil => simp at h
  | cons z ys ih =>
    cases i with
    | zero => simp only [List.set_cons_zero, plainSum]; ring
    | succ i => simp only [List.set_cons_succ, plainSum, ih (Nat.lt_of_succ_lt_succ h), BitVec.add_assoc]

/-- The word at index `i` weighs as much as there are words from it on. -/
theorem weightedSum_set_add {ys : List Word} {i : Nat} (h : i < ys.length) (y d : Word) :
    weightedSum (ys.set i (y + d)) = weightedSum (ys.set i y) + BitVec.ofNat 64 (ys.length - i) * d := by
  induction ys generalizing i with
  | nil => simp at h
  | cons z ys ih =>
    cases i with
    | zero => simp only [List.set_cons_zero, weightedSum, List.length_cons, Nat.sub_zero]; ring
    | succ i =>
      simp only [List.set_cons_succ, weightedSum, ih (Nat.lt_of_succ_lt_succ h), List.length_cons, List.length_set,
        Nat.add_sub_add_right, BitVec.add_assoc]

section
variable {ws : List Word} {j : Nat}

theorem fold_set_add_lane1 (h : ws.length % 4 = 0) (hj : j < ws.length) (hlane : j % 4 < 2) (x d : Word) :
    fold (ws.set j (x + d)) = { fold (ws.set j x) with
      a1 := (fold (ws.set j x)).a1 + d
      b1 := (fold (ws.set j x)).b1 + BitVec.ofNat 64 (ws.length / 2 - 2 * (j / 4) - j % 2) * d } := by
  have hset (y : Word) : (ws.set j y).length % 4 = 0 := by rw [List.length_set, h]
  have hi : 2 * (j / 4) + j % 2 < (lane1 ws).length := by rw [length_lane1 h]; omega
  simp only [fold_eq_sums (hset _), lane1_set h, lane2_set h, if_pos hlane, plainSum_set_add hi, weightedSum_set_add hi,
    length_lane1 h, List.length_set, Nat.sub_sub, BitVec.add_assoc]

theorem fold_set_add_lane2 (h : ws.length % 4 = 0) (hj : j < ws.length) (hlane : ¬ j % 4 < 2) (x d : Word) :
    fold (ws.set j (x + d)) = { fold (ws.set j x) with
      a2 := (fold (ws.set j x)).a2 + d
      b2 := (fold (ws.set j x)).b2 + BitVec.ofNat 64 (ws.length / 2 - 2 * (j / 4) - j % 2) * d } := by
  have hset (y : Word) : (ws.set j y).length % 4 = 0 := by rw [List.length_set, h]
  have hi : 2 * (j / 4) + j % 2 < (lane2 ws).length := by rw [length_lane2 h]; omega
  simp only [fold_eq_sums (hset _), lane1_set h, lane2_set h, if_neg hlane, plainSum_set_add hi, weightedSum_set_add hi,
    length_lane2 h, List.length_set, Nat.sub_sub, BitVec.add_assoc]

end

/-- Settles O29: the word stands in one lane (`fold_set_add_lane1`, `fold_set_add_lane2`), and that lane's `a` tells the two
folds apart. -/
theorem singleWordChangeIsSeen : Obligations.SingleWordChangeIsSeen := by
  intro pre post x d h f f' weight
  have hlen : (pre ++ x :: post).length = pre.length + 1 + post.length := by
    rw [List.length_append, List.length_cons, Nat.add_assoc, Nat.add_comm 1]
  have hset (y : Word) : (pre ++ x :: post).set pre.length y = pre ++ y :: post := by simp
  have h1 (hlane : pre.length % 4 < 2) : f' = { f with a1 := f.a1 + d, b1 := f.b1 + weight * d } := by
    have := fold_set_add_lane1 (ws := pre ++ x :: post) (hlen ▸ h) (by omega) hlane x d
    rwa [hset, hset, hlen] at this
  have h2 (hlane : 2 ≤ pre.length % 4) : f' = { f with a2 := f.a2 + d, b2 := f.b2 + weight * d } := by
    have := fold_set_add_lane2 (ws := pre ++ x :: post) (hlen ▸ h) (by omega) (Nat.not_lt.2 hlane) x d
    rwa [hset, hset, hlen] at this
  refine ⟨h1, h2, fun hd heq => hd ?_⟩
  rcases Nat.lt_or_ge (pre.length % 4) 2 with hlane | hlane
  · have ha : f.a1 + d = f.a1 := congrArg Accum.a1 ((h1 hlane).symm.trans heq)
    exact left_eq_add.1 ha.symm
  · have ha : f.a2 + d = f.a2 := congrArg Accum.a2 ((h2 hlane).symm.trans heq)
    exact left_eq_add.1 ha.symm

/-! ### Words that never wrap (R74) -/

theorem plainSum_eq_ofNat (ys : List Word) : plainSum ys = BitVec.ofNat 64 (exactSum ys) := by
  induction ys with
  | nil => rfl
  | cons y ys ih => rw [plainSum, exactSum, ih, BitVec.ofNat_add, BitVec.ofNat_toNat, BitVec.setWidth_eq]

theorem weightedSum_eq_ofNat (ys : List Word) : weightedSum ys = BitVec.ofNat 64 (exactWeightedSum ys) := by
  induction ys with
  | nil => rfl
  | cons y ys ih =>
    rw [weightedSum, exactWeightedSum, ih, BitVec.ofNat_add (_ * _), BitVec.ofNat_mul, BitVec.ofNat_toNat, BitVec.setWidth_eq]

theorem exactSum_le_exactWeightedSum (ys : List Word) : exactSum ys ≤ exactWeightedSum ys := by
  induction ys with
  | nil => exact Nat.le_refl 0
  | cons y ys ih =>
    rw [exactSum, exactWeightedSum]
    exact Nat.add_le_add (Nat.le_mul_of_pos_left _ (Nat.succ_pos _)) ih

/-- The weights of `n` words add up to `n (n + 1) / 2`. -/
theorem exactWeightedSum_le {ys : List Word} {m : Nat} (h : ∀ y ∈ ys, y.toNat ≤ m) :
    2 * exactWeightedSum ys ≤ ys.length * (ys.length + 1) * m := by
  induction ys with
  | nil => simp [exactWeightedSum]
  | cons y ys ih =>
    obtain ⟨hy, hys⟩ := List.forall_mem_cons.1 h
    have hfirst : (ys.length + 1) * y.toNat ≤ (ys.length + 1) * m := Nat.mul_le_mul_left _ hy
    rw [exactWeightedSum, List.length_cons]
    linarith [ih hys]

theorem lane1_subset (ws : List Word) : lane1 ws ⊆ ws := by
  induction ws using lane1.induct with
  | case1 w0 w1 w2 w3 ws ih =>
    exact List.cons_subset_cons _ (List.cons_subset_cons _ fun w hw => .tail _ (.tail _ (ih hw)))
  | case2 ws h => simp [lane1]

theorem lane2_subset (ws : List Word) : lane2 ws ⊆ ws := by
  induction ws using lane2.induct with
  | case1 w0 w1 w2 w3 ws ih =>
    exact fun w hw => .tail _ (.tail _ (List.cons_subset_cons _ (List.cons_subset_cons _ ih) hw))
  | case2 ws h => simp [lane2]

/-- Half of the longest accepted sequence is 262142 words (R74): neither sum of a lane reaches 2^64. -/
theorem lane_never_wraps {ys : List Word} (hlen : ys.length ≤ 262142) (h : ∀ y ∈ ys, y.toNat ≤ 536877056) :
    (1 + plainSum ys).toNat = 1 + exactSum ys ∧
    (BitVec.ofNat 64 ys.length + weightedSum ys).toNat = ys.length + exactWeightedSum ys := by
  have hsquare : ys.length * (ys.length + 1) ≤ 262142 * 262143 := Nat.mul_le_mul hlen (Nat.succ_le_succ hlen)
  have hweighted := (exactWeightedSum_le h).trans (Nat.mul_le_mul_right 536877056 hsquare)
  have hplain := exactSum_le_exactWeightedSum ys
  have hone : (1 : Word) = BitVec.ofNat 64 1 := rfl
  rw [plainSum_eq_ofNat, weightedSum_eq_ofNat, hone, ← BitVec.ofNat_add, ← BitVec.ofNat_add, BitVec.toNat_ofNat,
    BitVec.toNat_ofNat]
  exact ⟨Nat.mod_eq_of_lt (by omega), Nat.mod_eq_of_lt (by omega)⟩

/-- Settles O30: `lane_never_wraps` for each lane of the closed form. -/
theorem smallWordsNeverWrap : Obligations.SmallWordsNeverWrap := by
  intro ws h hlen hsmall
  obtain ⟨ha1, hb1⟩ := lane_never_wraps (by rw [length_lane1 h]; omega) fun w hw => hsmall w (lane1_subset ws hw)
  obtain ⟨ha2, hb2⟩ := lane_never_wraps (by rw [length_lane2 h]; omega) fun w hw => hsmall w (lane2_subset ws hw)
  rw [length_lane1 h] at hb1
  rw [length_lane2 h] at hb2
  rw [fold_eq_sums h]
  exact ⟨ha1, hb1, ha2, hb2⟩

/-! ### The ACC and RENDER commands (R79 to R88) -/

/-- Settles O31: the update that `execAccInit` names, IDENT written out (R67). -/
theorem accInitMakesFresh : Obligations.AccInitMakesFresh := fun _ => rfl

theorem exec_accUpd_of_full {s : State} (h : 2 ^ 19 ≤ s.cnt.toNat + 4) :
    exec .accUpd s = .next (raiseFail .sizeTooLarge s) := by
  have hfull : streamFull s.cnt = true := decide_eq_true h
  rw [exec, execAccUpd, hfull]
  rfl

/-- Settles O32: `exec_accUpd_of_lt` with the rule written out, and `exec_accUpd_of_full`. -/
theorem accUpdFoldsOrFails : Obligations.AccUpdFoldsOrFails := by
  refine fun s => ⟨fun h => ?_, exec_accUpd_of_full⟩
  have hcnt : BitVec.ofNat 19 (s.cnt.toNat + 4) = s.cnt + 4 := by
    rw [BitVec.ofNat_add, BitVec.ofNat_toNat, BitVec.setWidth_eq]
    rfl
  rw [exec_accUpd_of_lt h, upd4_expanded, hcnt]
  rfl

/-- Settles O33: the update that `execAccPut` names. -/
theorem accPutHandsBack : Obligations.AccPutHandsBack := fun _ => rfl

/-- R75: `acc_eq` is equality. -/
theorem accEq_eq_decide (a b : Accum) : accEq a b = decide (a = b) := by
  rw [Bool.eq_iff_iff, decide_eq_true_iff]
  obtain ⟨a1, b1, a2, b2⟩ := a
  obtain ⟨a1', b1', a2', b2'⟩ := b
  simp [accEq, and_assoc]

/-- Settles O34: the flag is `accEq`. -/
theorem accCmpeqSetsEq : Obligations.AccCmpeqSetsEq := by
  intro s
  rw [← accEq_eq_decide]
  rfl

/-- Settles O35: each RENDER is `renderInto` for its register set. -/
theorem renderPacksText : Obligations.RenderPacksText := fun _ => ⟨rfl, rfl, rfl⟩

/-! ### A text shows one value only (R85) -/

theorem hexDigit_injective : Function.Injective hexDigit := by
  have h : ∀ d e : BitVec 4, hexDigit d = hexDigit e → d = e := by decide
  exact fun d e => h d e

/-- Bit `i` of a word is in its digit `15 - i / 4`. -/
theorem eq_of_hexChar_eq {v w : Word} (h : ∀ j < 16, hexChar v j = hexChar w j) : v = w := by
  apply BitVec.eq_of_getLsbD_eq
  intro i hi
  have hdigit := congrArg (·.getLsbD (i % 4)) (hexDigit_injective (h (15 - i / 4) (by omega)))
  have hpos : 60 - 4 * (15 - i / 4) + i % 4 = i := by omega
  have hlt : i % 4 < 4 := Nat.mod_lt _ (by decide)
  simpa only [BitVec.getLsbD_extractLsb', hpos, hlt, decide_true, Bool.true_and] using hdigit

/-- Equal registers hold equal characters. -/
theorem hexChar_eq_of_packText_eq {a b : Accum} (h : packText (render a) = packText (render b)) {r k : Nat}
    (hr : r < 8) (hk : k < 8) :
    hexChar (textScalar a r) (8 * (r % 2) + k) = hexChar (textScalar b r) (8 * (r % 2) + k) := by
  have hreg : textReg (render a) r = textReg (render b) r := by
    simpa only [textRegOf_packText] using congrArg (textRegOf · ⟨r, hr⟩) h
  have hbyte := congrArg (byteOf · k) hreg
  simpa only [textReg, byteOf_wordOfBytes _ k hk, render_getD _ hr hk] using hbyte

/-- Registers `2 i` and `2 i + 1` show one scalar. -/
theorem textScalar_pair (a : Accum) (i : Nat) {e : Nat} (he : e < 2) : textScalar a (2 * i + e) = textScalar a (2 * i) := by
  have h2 : 2 * i + e < 2 ↔ 2 * i < 2 := by omega
  have h4 : 2 * i + e < 4 ↔ 2 * i < 4 := by omega
  have h6 : 2 * i + e < 6 ↔ 2 * i < 6 := by omega
  simp only [textScalar, h2, h4, h6]

theorem textScalar_eq_of_packText_eq {a b : Accum} (h : packText (render a) = packText (render b)) {i : Nat} (hi : i < 4) :
    textScalar a (2 * i) = textScalar b (2 * i) := by
  apply eq_of_hexChar_eq
  intro j hj
  have hchar := hexChar_eq_of_packText_eq h (r := 2 * i + j / 8) (k := j % 8) (by omega) (by omega)
  have hpos : 8 * ((2 * i + j / 8) % 2) + j % 8 = j := by omega
  rwa [textScalar_pair a i (by omega), textScalar_pair b i (by omega), hpos] at hchar

/-- Settles O37: each scalar can be read back from its registers. -/
theorem renderingIsInjective : Obligations.RenderingIsInjective := by
  refine fun a b => ⟨fun h => ?_, fun h => by rw [h]⟩
  have hscalar {i : Nat} (hi : i < 4) := textScalar_eq_of_packText_eq h hi
  have ha1 : a.a1 = b.a1 := hscalar (i := 0) (by decide)
  have ha2 : a.a2 = b.a2 := hscalar (i := 1) (by decide)
  have hb1 : a.b1 = b.b1 := hscalar (i := 2) (by decide)
  have hb2 : a.b2 = b.b2 := hscalar (i := 3) (by decide)
  obtain ⟨a1, b1, a2, b2⟩ := a
  obtain ⟨a1', b1', a2', b2'⟩ := b
  exact Accum.mk.injEq .. ▸ ⟨ha1, hb1, ha2, hb2⟩

end Sys2Proof.Machine

namespace Sys2Proof.Machine

/-! ### What CSUM answers (R89 to R95) -/

/-- A CSUM that fails changes STATUS only (R92, R115). -/
theorem exec_csum_of_fail {s : State} {code : FailCode} (h : entryCheck false s = some code) :
    exec .csum s = .next (raiseFail code s) := by
  rw [exec_pass (i := .csum) rfl]
  exact streamPass_fail h

/-- A CSUM that passes its checks and whose host keeps R48 ends with the fold of its words, and writes no memory (R91, R93). -/
theorem exec_csum_of_keeps {s : State} (hc : entryCheck false s = none) (hk : hostKeeps false s) :
    exec .csum s = .next { othersDone s with
      acc := fold (Memory.wordsAt s.mem s.src.toNat (wordCount s.len))
      out := fold (Memory.wordsAt s.mem s.src.toNat (wordCount s.len))
      cnt := BitVec.ofNat 19 (wordCount s.len)
      status := okStatus s.status
      engine := none } := by
  rw [exec_pass (i := .csum) rfl, streamPass_quiet hc hk]
  rfl

/-- Settles O40: the conditions of R90 in numbers, and N = LEN / 8. -/
theorem csumFoldsSource : Obligations.CsumFoldsSource := by
  intro s hlen hlen32 hsrc hend hkeeps
  have hc : entryCheck false s = none := csumCheck_eq_none.2 ⟨hlen, hlen32, hsrc, hend⟩
  rw [exec_csum_of_keeps hc hkeeps, wordCount_eq]
  rfl

/-- Settles O41: each clause is the condition of one code. -/
theorem csumFailsAtEntry : Obligations.CsumFailsAtEntry := fun _ =>
  ⟨fun hsize => exec_csum_of_fail (csumCheck_eq_size.2 hsize),
    fun hlen hpre => exec_csum_of_fail (csumCheck_eq_pre.2 ⟨hlen, hpre⟩)⟩

/-- R48 asks nothing for an empty source: it has no word to be admitted and no byte to be written, and covers no register. -/
theorem hostKeeps_csum_of_len_zero {s : State} (h : s.len = 0) : hostKeeps false s := by
  have hcount : wordCount s.len = 0 := by rw [h]; rfl
  have hlen : s.len.toNat = 0 := by rw [h]; rfl
  have hadmitted (holes : List Region) : buffersAdmitted false s holes := ⟨fun i hi => by omega, nofun⟩
  have hcovers : passCoversBlock false s = false := by simp [passCoversBlock, coversBlock, hlen]
  have houtside (a : Nat) : outsideBuffers false s a := ⟨by omega, nofun⟩
  exact ⟨⟨hadmitted s.holes, hcovers⟩, fun _ _ => ⟨fun holes _ => hadmitted holes, fun a _ => houtside a, fun _ _ => nofun⟩⟩

/-- Settles O42: an empty source passes every check but perhaps alignment, and R48 is kept for it whatever memory admits. -/
theorem csumOfZeroLength : Obligations.CsumOfZeroLength := by
  intro s h
  have hlen : s.len.toNat = 0 := by rw [h]; rfl
  have hsrc := s.src.isLt
  refine ⟨fun haligned => ?_, fun hmisaligned => ?_⟩
  · have hc : entryCheck false s = none := csumCheck_eq_none.2 ⟨by omega, by omega, haligned, by omega⟩
    rw [exec_csum_of_keeps hc (hostKeeps_csum_of_len_zero h), h]
    rfl
  · exact exec_csum_of_fail (csumCheck_eq_pre.2 ⟨by omega, .inr (.inl hmisaligned)⟩)

/-- Settles O43: OUT and ACC are the fold of the words read, and CNT is their number. -/
theorem csumDependsOnlyOnWords : Obligations.CsumDependsOnlyOnWords := by
  intro s1 s2 hc1 hc2 hk1 hk2 hwords
  have hcount : wordCount s1.len = wordCount s2.len := by
    simpa only [Memory.length_wordsAt] using congrArg List.length hwords
  have hfold := congrArg fold hwords
  exact ⟨_, _, exec_csum_of_keeps hc1 hk1, exec_csum_of_keeps hc2 hk2, hfold, hfold, congrArg (BitVec.ofNat 19) hcount⟩

end Sys2Proof.Machine

namespace Sys2Proof.Machine

/-! ### COPY.*: its strategies, its failures and its result (R98, R103 to R106) -/

/-- Settles O48: each strategy is the one pass of `exec_pass`. -/
theorem strategiesAgree : Obligations.StrategiesAgree := fun s =>
  ⟨(exec_pass (i := .copyW) rfl s).trans (exec_pass (i := .copyB) rfl s).symm,
    (exec_pass (i := .copyF) rfl s).trans (exec_pass (i := .copyB) rfl s).symm⟩

/-- A COPY.* that fails changes STATUS only (R106, R115). -/
theorem exec_copy_of_fail {i : Instr} {s : State} {code : FailCode} (hi : i ∈ [Instr.copyB, .copyW, .copyF])
    (h : entryCheck true s = some code) : exec i s = .next (raiseFail code s) := by
  rw [exec_pass (passOf_copy hi)]
  exact streamPass_fail h

/-- Settles O47: each clause is the condition of one code. -/
theorem copyFailsAtEntry : Obligations.CopyFailsAtEntry := fun _ _ hi =>
  ⟨fun hsize => exec_copy_of_fail hi (copyCheck_eq_size.2 hsize),
    fun hlen hpre => exec_copy_of_fail hi (copyCheck_eq_pre.2 ⟨hlen, hpre⟩)⟩

/-- What a COPY.* leaves where its checks pass and the host keeps R48 (R99): the source words in the destination, their fold in
ACC and OUT, their number in CNT, and what the others did. -/
def copied (s : State) : State :=
  { othersDone s with
    mem := Memory.writeWords (othersDone s).mem s.dst.toNat (Memory.wordsAt s.mem s.src.toNat (wordCount s.len))
    acc := fold (Memory.wordsAt s.mem s.src.toNat (wordCount s.len))
    out := fold (Memory.wordsAt s.mem s.src.toNat (wordCount s.len))
    cnt := BitVec.ofNat 19 (wordCount s.len)
    status := okStatus s.status
    engine := none }

theorem exec_copy_of_keeps {i : Instr} {s : State} (hi : i ∈ [Instr.copyB, .copyW, .copyF]) (hc : entryCheck true s = none)
    (hk : hostKeeps true s) : exec i s = .next (copied s) := by
  rw [exec_pass (passOf_copy hi), streamPass_quiet hc hk]
  rfl

/-- The destination of a copy holds the words of the source. -/
theorem wordsAt_copied_dst (s : State) : Memory.wordsAt (copied s).mem s.dst.toNat (wordCount s.len) =
    Memory.wordsAt s.mem s.src.toNat (wordCount s.len) := by
  simpa [copied] using
    Memory.wordsAt_writeWords_same (othersDone s).mem s.dst.toNat (Memory.wordsAt s.mem s.src.toNat (wordCount s.len))

/-- The source of a copy is apart from its destination (R41) and no other agent writes it (R48 (b)), so it stays. -/
theorem wordsAt_copied_src {s : State} (hc : entryCheck true s = none) (hk : hostKeeps true s) :
    Memory.wordsAt (copied s).mem s.src.toNat (wordCount s.len) = Memory.wordsAt s.mem s.src.toNat (wordCount s.len) := by
  obtain ⟨-, h8, -, hapart⟩ := entryCheck_none hc
  rcases hapart rfl with h | h | hzero
  · exact (Memory.wordsAt_writeWords_other _ _ (.inl (by omega))).trans (hostKeeps_words h8 hk)
  · exact (Memory.wordsAt_writeWords_other _ _ (.inr (by simpa [← h8] using h))).trans (hostKeeps_words h8 hk)
  · rw [show wordCount s.len = 0 by omega]
    rfl

/-- Two buffers that hold the same words hold the same bytes. -/
theorem Memory.byteAt_eq_of_wordsAt_eq {m m' : List Host.Cell} {a a' n k : Nat}
    (h : Memory.wordsAt m a n = Memory.wordsAt m' a' n) (hk : k < 8 * n) :
    Memory.byteAt m (a + k) = Memory.byteAt m' (a' + k) := by
  have hj : k / 8 < n := by omega
  have hword : Memory.wordAt m (a + 8 * (k / 8)) = Memory.wordAt m' (a' + 8 * (k / 8)) := by
    simpa only [Memory.getElem?_wordsAt _ _ hj, Option.some.injEq] using congrArg (·[k / 8]?) h
  have hbyte := Nat.mod_lt k (show 0 < 8 by decide)
  have hsplit (b : Nat) : b + k = b + 8 * (k / 8) + k % 8 := by omega
  rw [hsplit a, hsplit a', Memory.byteAt_eq_byteOf_wordAt _ _ hbyte, Memory.byteAt_eq_byteOf_wordAt _ _ hbyte, hword]

/-- Settles O46: both buffers hold the source's words afterwards, and `memoryOutsideDestinationUnchanged` is the frame. -/
theorem copyIsExact : Obligations.CopyIsExact := by
  intro i s hi hc hk
  obtain ⟨-, h8, hlimit, -⟩ := entryCheck_none hc
  have hexec := exec_copy_of_keeps hi hc hk
  have hcnt : (copied s).cnt.toNat = s.len.toNat / 8 := by
    rw [copied, BitVec.toNat_ofNat]
    omega
  refine ⟨copied s, hexec, rfl, hcnt, rfl, ?_, fun k hlt => ?_, fun k hlt => ?_, fun a hout hmiss => ?_⟩
  · rw [copied, wordCount_eq]
  · exact Memory.byteAt_eq_of_wordsAt_eq (wordsAt_copied_dst s) (by omega)
  · exact Memory.byteAt_eq_of_wordsAt_eq (wordsAt_copied_src hc hk) (by omega)
  · exact memoryOutsideDestinationUnchanged i s _ a hexec hmiss (.inr hout)

/-! ### CSUM over the buffers of a copy (R104) -/

/-- The state with SRC at the destination. -/
abbrev srcAtDst (s : State) : State := { s with src := s.dst }

/-- Where the checks of COPY.* pass, those of CSUM pass for the source and for the destination (R90, R98). -/
theorem entryCheck_csum_of_copy {s : State} (hc : entryCheck true s = none) :
    entryCheck false s = none ∧ entryCheck false (srcAtDst s) = none := by
  obtain ⟨hlen, hlen32, hsrc, hdst, hsrcEnd, hdstEnd, -⟩ := copyCheck_eq_none.1 hc
  have hsrc8 : s.src.toNat % 8 = 0 := by omega
  have hdst8 : s.dst.toNat % 8 = 0 := by omega
  exact ⟨csumCheck_eq_none.2 ⟨hlen, hlen32, hsrc8, hsrcEnd⟩, csumCheck_eq_none.2 ⟨hlen, hlen32, hdst8, hdstEnd⟩⟩

/-- Where neither buffer of a copy covers the register block, CSUM over either does not (R42). -/
theorem passCoversBlock_csum_of_copy {s : State} (h : passCoversBlock true s = false) :
    passCoversBlock false s = false ∧ passCoversBlock false (srcAtDst s) = false := by
  simpa [passCoversBlock] using h

/-- What spares both buffers of a copy spares the source of a CSUM (R48). -/
theorem hostKeeps_csum_of_copy {s : State} (hk : hostKeeps true s) : hostKeeps false s := by
  obtain ⟨⟨⟨hread, -⟩, hblock⟩, hspare⟩ := hk
  refine ⟨⟨⟨hread, nofun⟩, (passCoversBlock_csum_of_copy hblock).1⟩, fun r hr => ?_⟩
  obtain ⟨hremap, hwrite, -⟩ := hspare r hr
  exact ⟨fun holes hh => ⟨(hremap holes hh).1, nofun⟩, fun a ha => ⟨(hwrite a ha).1, nofun⟩, fun _ _ => nofun⟩

/-- With nothing armed, R48 asks of a CSUM only that its buffer is valid. -/
theorem exec_csum_of_no_rivals {s : State} (hr : s.rivals = []) (hc : entryCheck false s = none)
    (hb : passCoversBlock false s = false) (ha : bufferAdmitted .read s.holes s.src.toNat (wordCount s.len)) :
    ∃ t, exec .csum s = .next t ∧ t.out = fold (Memory.wordsAt s.mem s.src.toNat (wordCount s.len)) :=
  ⟨_, exec_csum_of_keeps hc ⟨⟨⟨ha, nofun⟩, hb⟩, by simp [hr]⟩, rfl⟩

/-- Settles O50: each of the three buffers CSUM reads holds the words the copy read, and a completed copy leaves nothing armed. -/
theorem copyAgreesWithCsum : Obligations.CopyAgreesWithCsum := by
  intro i s hi hc hk
  obtain ⟨hcsrc, hcdst⟩ := entryCheck_csum_of_copy hc
  obtain ⟨⟨hread, -⟩, hblock⟩ := hostKeeps_othersDone hk
  obtain ⟨hbsrc, hbdst⟩ := passCoversBlock_csum_of_copy hblock
  obtain ⟨w, hw, hwout⟩ := exec_csum_of_no_rivals (s := copied s) rfl hcsrc hbsrc hread
  refine ⟨copied s, _, w, exec_copy_of_keeps hi hc hk, exec_csum_of_keeps hcsrc (hostKeeps_csum_of_copy hk), hw, rfl,
    hwout.trans (congrArg fold (wordsAt_copied_src hc hk)), fun hadmitted => ?_⟩
  obtain ⟨v, hv, hvout⟩ := exec_csum_of_no_rivals (s := srcAtDst (copied s)) rfl hcdst hbdst hadmitted
  exact ⟨v, hv, hvout.trans (congrArg fold (wordsAt_copied_dst s))⟩

end Sys2Proof.Machine

namespace Sys2Proof.Machine

/-! ### Failures (R114, R115) -/

/-- The eleven words of R58 are those of the commands. -/
theorem encode_mem_commandWords (i : Instr) :
    encode i ∈ ([0x01, 0x02, 0x03, 0x04, 0x05, 0x15, 0x25, 0x08, 0x09, 0x19, 0x29] : List CommandWord) := by
  cases i <;> decide

theorem runCommandWord_of_error {cw : CommandWord} {e : Illegal} (h : decode cw = .error e) (s : State) :
    runCommandWord cw s = .next (raiseFail .illegalCommand s) := by
  rw [runCommandWord, h]

/-- Settles O4: a word that decoded to a command would be its encoding, one of the eleven; one that does not is answered by R115
with code 3. -/
theorem illegalWordFailsAndChangesNothingElse : Obligations.IllegalWordFailsAndChangesNothingElse := by
  intro s data rest hword hs
  rw [step_eq_handle hs]
  cases hd : decode (commandWordOf data) with
  | ok i =>
    have hencode : commandWordOf data = encode i := eq_encode_of_decode hd
    exact absurd (hencode ▸ encode_mem_commandWords i) hword
  | error e => exact runCommandWord_of_error hd _

/-- Settles O20: a failure is R115's effect for its code, and every other effect of a command sets OK. -/
theorem failureChangesOnlyStatus : Obligations.FailureChangesOnlyStatus := by
  intro i s t h hok
  cases exec_effect h with
  | failed code => exact ⟨code, rfl⟩
  | passed | accInit | accUpd | accPut | accCmpeq | renderOut | renderRef | renderAcc => exact nomatch hok

end Sys2Proof.Machine

namespace Sys2Proof.Machine

/-! ### Right after reset (R128) -/

/-- An offset and a value: the offset names a slot, and right after reset a read of it returns the value (R16, R31). -/
def readsAtReset (p : Nat × Word) : Bool := (slotAt 8 p.1).any fun slot => readSlot State.reset slot == p.2

/-- A reset leaves the same registers whatever the state before it. -/
theorem readSlot_resetBlock (s : State) (slot : Slot) : readSlot (resetBlock s) slot = readSlot State.reset slot := by
  cases slot <;> rfl

theorem issue_rd_resetBlock {p : Nat × Word} (h : readsAtReset p = true) (s : State) :
    issue (.rd 8 p.1) (resetBlock s) =
      .next { resetBlock s with replies := (resetBlock s).replies ++ [p.2] } := by
  obtain ⟨slot, hslot, hvalue⟩ := (Option.any_eq_true _ _).1 h
  rw [issue_rd_of_slotAt hslot, readSlot_resetBlock, eq_of_beq hvalue]

/-- Where ACC is IDENT and CNT is 0, ACC.INIT changes STATUS only, and ACC.UPD overwrites what it changed. -/
theorem exec_accUpd_eq_after_accInit {s : State} (hacc : s.acc = Accum.ident) (hcnt : s.cnt = 0) :
    exec .accUpd s = andThen (exec .accInit s) (exec .accUpd) := by
  have hinit : exec .accInit s = .next (succeed s) := by
    change Host.Outcome.next (succeed { s with acc := Accum.ident, cnt := 0 }) = _
    rw [← hacc, ← hcnt]
  have hlt : s.cnt.toNat + 4 < 2 ^ 19 := by rw [hcnt]; decide
  rw [hinit, andThen_next, exec_accUpd_of_lt hlt, exec_accUpd_of_lt (s := succeed s) hlt]
  rfl

/-- Settles O14: the reads by R31's values, ACC.UPD by `exec_accUpd_eq_after_accInit`, and ACC is IDENT for ACC.PUT. -/
theorem rightAfterReset : Obligations.RightAfterReset := fun s =>
  ⟨resetBlock s, rfl,
    fun off v h => issue_rd_resetBlock (List.all_eq_true.1 (by decide) (off, v) h) s,
    fun _ => exec_accUpd_eq_after_accInit rfl rfl,
    ⟨_, accPutHandsBack _, rfl⟩, rfl⟩

/-! ### Reset while a COPY.* runs (R129) -/

theorem abandonCommand_copy {cw : CommandWord} {i : Instr} {s : State} (hd : decode cw = .ok i)
    (hi : i ∈ [Instr.copyB, .copyW, .copyF]) (hc : entryCheck true s = none) (hb : passCoversBlock true s = false) :
    abandonCommand cw s =
      .next (resetBlock { s with mem := mixWords s (wordCount s.len), draws := s.draws + 1 }) := by
  simp [abandonCommand, hd, passOf_copy hi, hc, hb]

/-- One more destination word is left as it is, or takes the source word. -/
theorem mixWords_succ (s : State) (n : Nat) : mixWords s (n + 1) = mixWords s n ∨
    mixWords s (n + 1) =
      Memory.writeWord (mixWords s n) (s.dst.toNat + 8 * n) (Memory.wordAt s.mem (s.src.toNat + 8 * n)) := by
  rw [mixWords]
  split
  · exact .inr rfl
  · exact .inl rfl

theorem byteAt_mixWords_other {s : State} {n a : Nat} (h : a < s.dst.toNat ∨ s.dst.toNat + 8 * n ≤ a) :
    Memory.byteAt (mixWords s n) a = Memory.byteAt s.mem a := by
  induction n with
  | zero => rfl
  | succ n ih =>
    have hkept := ih (by omega)
    rcases mixWords_succ s n with hmix | hmix <;> rw [hmix]
    · exact hkept
    · exact (Memory.byteAt_writeWord_other _ _ (by omega)).trans hkept

/-- R129 word by word: only the turn of word `k` itself can change it, and then it takes the source word. -/
theorem wordAt_mixWords (s : State) (n k : Nat) :
    Memory.wordAt (mixWords s n) (s.dst.toNat + 8 * k) = Memory.wordAt s.mem (s.dst.toNat + 8 * k) ∨
    Memory.wordAt (mixWords s n) (s.dst.toNat + 8 * k) = Memory.wordAt s.mem (s.src.toNat + 8 * k) := by
  induction n with
  | zero => exact .inl rfl
  | succ n ih =>
    rcases mixWords_succ s n with hmix | hmix <;> rw [hmix]
    · exact ih
    · by_cases hk : k = n
      · subst hk
        exact .inr (Memory.wordAt_writeWord_same _ _ _)
      · rw [Memory.wordAt_writeWord_other _ _ (by omega)]
        exact ih

/-- Settles O15: the memory left is `mixWords`, over the words of the destination (R56). -/
theorem abandonedCopyLeavesMixture : Obligations.AbandonedCopyLeavesMixture := by
  intro s data i hd hi hc hb
  obtain ⟨-, h8, -⟩ := entryCheck_none hc
  exact ⟨mixWords s (wordCount s.len), abandonCommand_copy hd hi hc hb, fun k _ => wordAt_mixWords s _ k,
    fun a ha => byteAt_mixWords_other (by omega)⟩

end Sys2Proof.Machine
